-- ==== Sys2Proof/Word.lean ====
section
/-! DEFINITION. The words of the block: the byte (00_scope.md R7), the 40-bit command word
(30_encoding.md R81) and the 40-bit response word (30_encoding.md R84). -/

namespace Sys2Proof

/-- A byte is 8 bits, unsigned, 0 to 255 (00_scope.md R7). -/
abbrev Byte := BitVec 8

/-- The command word `CMD`: one format, fixed length 40 bits (30_encoding.md R81). -/
abbrev CmdWord := BitVec 40

/-- The response word `RSP`: one format, 40 bits (30_encoding.md R84). -/
abbrev RspWord := BitVec 40

end Sys2Proof
end

