-- ==== Sys2Proof/Config.lean ====
section
/-! DEFINITION. What is fixed for a machine: the constants of 00_scope.md R6, the index width of R8
and the two parameters R8 leaves open. -/

namespace Sys2Proof

/-- `DELIM = 0x00`, the delimiter byte value (00_scope.md R6). -/
def Config.delim : Byte := 0x00#8

/-- `RUN_CAP = 254`, the largest number of literal bytes in one run (00_scope.md R6). -/
abbrev Config.runCap : Nat := 254

/-- `CODE_FULL = 0xFF`, the marker value of a run of exactly `RUN_CAP` literal bytes (00_scope.md R6). -/
def Config.codeFull : Byte := 0xFF#8

/-- `IDXW = 32`, the width in bits of every cursor and length (00_scope.md R8, 92_eei_decisions.md D4).
Mark: DESIGN CHOICE, safe (notes/assumptions/7.md). -/
abbrev Config.idxw : Nat := 32

/-- The parameters the source leaves to the implementation (00_scope.md R8): arguments of the model.
A machine carries its own, `State.params`, and no operation writes them (notes/assumptions/4.md). -/
structure Params where
  /-- `ECAP`: number of byte cells of EBUF. -/
  ecap : Nat
  /-- `DBUF_SIZE`: number of byte cells physically present in DBUF. -/
  dbufSize : Nat
deriving DecidableEq, Repr

/-- The side conditions of 00_scope.md R8: `ECAP + 1 < 2^IDXW` and `DBUF_SIZE < 2^IDXW`. -/
abbrev Params.WF (p : Params) : Prop :=
  p.ecap + 1 < 2 ^ Config.idxw ∧ p.dbufSize < 2 ^ Config.idxw

/-- The parameters of the machine `State.reset` describes: the largest R8 admits, so that no
operation stops for want of cells that some block of this specification has.
Mark: DESIGN CHOICE, unsafe (notes/assumptions/4.md). -/
def Config.largest : Params := { ecap := 4294967294, dbufSize := 4294967295 }

end Sys2Proof
end

