-- ==== Sys2Proof/Syntax.lean ====
section
/-! DEFINITION. The operations (30_encoding.md R80), one constructor per row of opcode_table.json,
the verdict on a word that spells none (R83), the statuses and the response (R84 to R86). -/

namespace Sys2Proof

/-- The operations of the block, the type `Op` of 30_encoding.md R80. -/
inductive Instr where
  /-- `ENC_INIT`: start a new frame (41_encoder.md R101). -/
  | encInit
  /-- `ENC_BYTE b`: add one payload byte (41_encoder.md R102). -/
  | encByte (b : Byte)
  /-- `ENC_FINISH`: close the last run and terminate the frame (41_encoder.md R103). -/
  | encFinish
  /-- `DEC_INIT cap`: bind the capacity and go to the initial state (43_decoder.md R151). -/
  | decInit (cap : Nat)
  /-- `DEC_BYTE b`: consume one received byte (43_decoder.md R152). -/
  | decByte (b : Byte)
deriving DecidableEq, Repr

/-- Why a command word is `Illegal` (30_encoding.md R83). -/
inductive IllegalWord where
  /-- Bits 39:32 hold no operation code of R82. -/
  | unassignedOp
  /-- A must-be-zero bit of `arg` is set. -/
  | mustBeZero
deriving DecidableEq, Repr

/-- The statuses (30_encoding.md R86, 60_exceptions.md R201). -/
inductive Status where
  /-- Byte consumed, frame not complete; returned by `DEC_BYTE`. -/
  | processing
  /-- Frame complete, decoded length in the value; returned by `DEC_BYTE`. -/
  | frameAvailable
  /-- A 0x00 in a literal position; returned by `DEC_BYTE`. -/
  | malformedFrame
  /-- A write was needed and the buffer was full; returned by `DEC_BYTE`. -/
  | overflow
  /-- Input exhausted without a terminator; returned by `DEC_FEED` and `DEC_ONESHOT` only. -/
  | incompleteFrame
  /-- The operation completed; returned by the other four operations. -/
  | done
deriving DecidableEq, Repr

/-- A response: the pair of 30_encoding.md R80, its value a length (R85), 0 where it carries none. -/
structure Response where
  status : Status
  value : Nat
deriving DecidableEq, Repr

end Sys2Proof
end

