-- ==== Sys2Proof/WellFormed.lean ====
section
/-! DEFINITION. Which operations are well formed: 30_encoding.md R80 bounds the operand of `DEC_INIT`
below `2^IDXW`; a byte operand is bounded by its type. -/

namespace Sys2Proof

/-- The operand ranges of 30_encoding.md R80. -/
def Instr.wf : Instr → Bool
  | .encInit => true
  | .encByte _ => true
  | .encFinish => true
  | .decInit cap => decide (cap < 2 ^ Config.idxw)
  | .decByte _ => true

/-- A response value fits the field `RSP.value` (30_encoding.md R84). -/
def Response.wf (r : Response) : Bool := decide (r.value < 2 ^ Config.idxw)

end Sys2Proof
end

