-- ==== Sys2Proof/Decode.lean ====
section
/-! DEFINITION. Command words and operations (30_encoding.md R81 to R83), response words
(R84 to R86), and the opcode table's match and mask rows. -/

namespace Sys2Proof

/-- `CMD.op`, bits 39:32 (30_encoding.md R81). -/
def cmdOp (w : CmdWord) : BitVec 8 := w.extractLsb' 32 8

/-- `CMD.arg`, bits 31:0 (30_encoding.md R81). -/
def cmdArg (w : CmdWord) : BitVec 32 := w.extractLsb' 0 32

/-- `arg[7:0]`, the byte operand (30_encoding.md R82). -/
def argByte (a : BitVec 32) : Byte := a.extractLsb' 0 8

/-- `arg[31:8]`, zero in a word with a byte operand (30_encoding.md R82). -/
def argHigh (a : BitVec 32) : BitVec 24 := a.extractLsb' 8 24

/-- The operation a command word spells, or the verdict `Illegal` and why (30_encoding.md R82, R83). -/
def decode (w : CmdWord) : Except IllegalWord Instr :=
  if cmdOp w = 0x01 then
    if cmdArg w = 0 then .ok .encInit else .error .mustBeZero
  else if cmdOp w = 0x02 then
    if argHigh (cmdArg w) = 0 then .ok (.encByte (argByte (cmdArg w))) else .error .mustBeZero
  else if cmdOp w = 0x03 then
    if cmdArg w = 0 then .ok .encFinish else .error .mustBeZero
  else if cmdOp w = 0x11 then .ok (.decInit (cmdArg w).toNat)
  else if cmdOp w = 0x12 then
    if argHigh (cmdArg w) = 0 then .ok (.decByte (argByte (cmdArg w))) else .error .mustBeZero
  else .error .unassignedOp

/-- The operation code of an operation (30_encoding.md R82). -/
def opOf : Instr → BitVec 8
  | .encInit => 0x01
  | .encByte _ => 0x02
  | .encFinish => 0x03
  | .decInit _ => 0x11
  | .decByte _ => 0x12

/-- The operand field of an operation (30_encoding.md R82): unsigned, nothing extended or shifted. -/
def argOf : Instr → BitVec 32
  | .encInit => 0
  | .encByte b => b.setWidth 32
  | .encFinish => 0
  | .decInit cap => BitVec.ofNat 32 cap
  | .decByte b => b.setWidth 32

/-- The format `CMD`: `op` in bits 39:32, `arg` in bits 31:0 (30_encoding.md R81). -/
def cmdOf (op : BitVec 8) (arg : BitVec 32) : CmdWord :=
  (op.setWidth 40 <<< 32) ||| arg.setWidth 40

/-- The command word of a well-formed operation (30_encoding.md R81, R82). -/
def encode (i : Instr) : CmdWord := cmdOf (opOf i) (argOf i)

/-- One row of the table of 30_encoding.md R82 (opcode_table.json). -/
structure OpcodeRow where
  mnemonic : String
  pattern : CmdWord
  mask : CmdWord
deriving DecidableEq, Repr

/-- The table of 30_encoding.md R82, row by row. -/
def opcodeTable : List OpcodeRow :=
  [⟨"ENC_INIT", 0x0100000000#40, 0xFFFFFFFFFF#40⟩,
   ⟨"ENC_BYTE", 0x0200000000#40, 0xFFFFFFFF00#40⟩,
   ⟨"ENC_FINISH", 0x0300000000#40, 0xFFFFFFFFFF#40⟩,
   ⟨"DEC_INIT", 0x1100000000#40, 0xFF00000000#40⟩,
   ⟨"DEC_BYTE", 0x1200000000#40, 0xFFFFFFFF00#40⟩]

/-- A word matches a row: its bits under the mask are the row's pattern (30_encoding.md R82). -/
def rowMatches (r : OpcodeRow) (w : CmdWord) : Bool := w &&& r.mask == r.pattern

/-- The mnemonic of an operation, as opcode_table.json has it. -/
def mnemonicOf : Instr → String
  | .encInit => "ENC_INIT"
  | .encByte _ => "ENC_BYTE"
  | .encFinish => "ENC_FINISH"
  | .decInit _ => "DEC_INIT"
  | .decByte _ => "DEC_BYTE"

/-- The numeric status codes of 30_encoding.md R86. -/
def statusCode : Status → BitVec 3
  | .processing => 0
  | .frameAvailable => 1
  | .malformedFrame => 2
  | .overflow => 3
  | .incompleteFrame => 4
  | .done => 5

/-- The response word `RSP`: bits 39:35 zero, status in 34:32, value in 31:0 (30_encoding.md R84). -/
def encodeResponse (r : Response) : RspWord :=
  ((statusCode r.status).setWidth 40 <<< 32) ||| (BitVec.ofNat 32 r.value).setWidth 40

/-- The status of a code; 6 and 7 are reserved (30_encoding.md R86). -/
def statusOfCode (c : BitVec 3) : Option Status :=
  if c = 0 then some .processing
  else if c = 1 then some .frameAvailable
  else if c = 2 then some .malformedFrame
  else if c = 3 then some .overflow
  else if c = 4 then some .incompleteFrame
  else if c = 5 then some .done
  else none

/-- Reading a response word. A word with a bit of 39:35 set or a reserved status is read as none
(93_implementation_defined.md U11). Mark: DESIGN CHOICE, safe (notes/assumptions/15.md). -/
def decodeResponse (w : RspWord) : Option Response :=
  if w.extractLsb' 35 5 = 0 then
    (statusOfCode (w.extractLsb' 32 3)).map fun s => ⟨s, (w.extractLsb' 0 32).toNat⟩
  else none

/-- The command word the host's question names: `nbits` bits of `w`, every bit above them zero
(notes/assumptions/21.md). -/
def tableWord (nbits w : Nat) : CmdWord := BitVec.ofNat 40 (w % 2 ^ nbits)

/-- The operation the decoder reads from the table's word, none where it refuses. -/
def decodeTableWord (nbits w : Nat) : Option Instr :=
  match decode (tableWord nbits w) with
  | .ok i => some i
  | .error _ => none

end Sys2Proof
end

