-- ==== Sys2Proof/Machine/State.lean ====
section
/-! DEFINITION. The state of the block (10_state.md R20, R21) beside its parameters (R44) and the
host's side of its interface, as plain data; the faults (60_exceptions.md R211) and refusals; the
state at power-on (10_state.md R40). -/

namespace Sys2Proof.Machine

/-- The cells of one buffer that hold a byte, as (index, byte) pairs, indices strictly rising. A cell
that is not listed holds no value (20_memory.md R51), so no entry can equal what an unlisted cell
reads as (notes/assumptions/6.md). -/
abbrev Memory := List Host.Cell

/-- `EPHASE` (10_state.md R27): model-only in the spec itself. -/
inductive EncPhase where
  /-- Never initialised since power-on. -/
  | uninit
  /-- Initialised, not yet finalised. -/
  | active
  /-- Finalised: the buffer holds a complete frame. -/
  | final
deriving DecidableEq, Repr

/-- `DPHASE` (10_state.md R35): model-only in the spec itself. -/
inductive DecPhase where
  /-- No `DEC_INIT` since power-on. -/
  | uninit
  /-- Initialised. -/
  | ready
deriving DecidableEq, Repr

/-- The encoder instance (10_state.md R20). The cursors are naturals, as the spec's arithmetic is
(00_scope.md R10); they fit `IDXW` bits by an invariant (10_state.md R42, notes/assumptions/7.md). -/
structure Encoder where
  /-- `EBUF` (20_memory.md R50). -/
  ebuf : Memory
  /-- `EMARK`: index of the reserved marker cell of the pending run (10_state.md R24). -/
  emark : Nat
  /-- `ECUR`: index of the next cell to write (10_state.md R25). -/
  ecur : Nat
  /-- `ECODE`: the marker value of the pending run, its literal count plus one (10_state.md R26). -/
  ecode : Byte
  /-- `EPHASE` (10_state.md R27). -/
  ephase : EncPhase
deriving DecidableEq, Repr

/-- The decoder instance (10_state.md R20). -/
structure Decoder where
  /-- `DBUF` (20_memory.md R50). -/
  dbuf : Memory
  /-- `DCAP`: number of cells the decoder may write (10_state.md R31). -/
  dcap : Nat
  /-- `DW`: the write cursor (10_state.md R32). -/
  dw : Nat
  /-- `DREM`: literal bytes the current run still owes (10_state.md R33). -/
  drem : Byte
  /-- `DMAND`: no implicit delimiter is owed before the next marker (10_state.md R34). -/
  dmand : Bool
  /-- `DPHASE` (10_state.md R35). -/
  dphase : DecPhase
deriving DecidableEq, Repr

/-- The host's side of the interface: no state of the block (10_state.md R23, R39, R44). -/
structure HostPort where
  /-- The operations the host has still to issue, as command words, the next one first
  (70_reset_and_hazards.md R247; notes/assumptions/1.md). -/
  commands : List CmdWord
  /-- The responses returned so far, oldest first (30_encoding.md R84; notes/assumptions/2.md). -/
  responses : List Response
deriving DecidableEq, Repr

/-- One machine: one encoder instance and one decoder instance (60_exceptions.md R216), the
parameters they were built with, and the host's side. -/
structure State where
  /-- `ECAP` and `DBUF_SIZE` (00_scope.md R8); no operation writes them (notes/assumptions/4.md). -/
  params : Params
  enc : Encoder
  dec : Decoder
  host : HostPort
deriving DecidableEq, Repr

/-- The faults of the model, exactly the table of 60_exceptions.md R211: each a precondition the block
does not check. All are safe: the real block goes on in a way no source defines. -/
inductive Fault where
  /-- Raised by `ENC_BYTE` and `ENC_FINISH` at a write to EBUF at an index `>= ECAP`; safe. -/
  | encBufferOverrun
  /-- Raised by `ENC_BYTE` and `ENC_FINISH` while `EPHASE` is `Uninit` or `Final`; safe. -/
  | encNotActive
  /-- Raised by `DEC_BYTE` while `DPHASE = Uninit`; safe. -/
  | decNotReady
  /-- Raised by `DEC_INIT` when `cap > DBUF_SIZE`; safe. -/
  | decCapTooLarge
deriving DecidableEq, Repr

/-- What has no meaning in the model. -/
inductive Refusal where
  /-- Raised by an arm of `exec` that has no meaning yet (there is none now); safe. -/
  | notModelled (mnemonic : String)
  /-- Raised by `step` at a command word that spells no operation (30_encoding.md R83); safe. -/
  | illegalCommand (why : IllegalWord)
  /-- Raised by `step` when the host has issued no further operation: the run has ended
  (70_reset_and_hazards.md R247, notes/assumptions/3.md); safe. -/
  | noCommand
  /-- Raised by a host read of a cell without a value (20_memory.md R54); safe. -/
  | cellWithoutValue
  /-- Raised by a host read at an index where the buffer has no cell (20_memory.md R50,
  notes/assumptions/11.md); safe. -/
  | noSuchCell
deriving DecidableEq, Repr

/-- The power-on state of a block with parameters `p` (10_state.md R40): both phases `Uninit`, no cell
with a value. R40 gives the registers no value; each holds 0 here, which no operation reads.
Mark: DESIGN CHOICE, unsafe (notes/assumptions/5.md). -/
def State.powerOn (p : Params) : State :=
  { params := p
    enc := { ebuf := [], emark := 0, ecur := 0, ecode := 0#8, ephase := .uninit }
    dec := { dbuf := [], dcap := 0, dw := 0, drem := 0#8, dmand := false, dphase := .uninit }
    host := { commands := [], responses := [] } }

/-- The machine right after power-on, with the parameters `Config.largest` (notes/assumptions/4.md). -/
def State.reset : State := State.powerOn Config.largest

end Sys2Proof.Machine
end

