-- ==== Sys2Proof/Machine/Ops.lean ====
section
/-! DEFINITION. The named operations every meaning is built from: the cells of a buffer
(20_memory.md R51, R53, R54), the response (30_encoding.md R84), the automatic reset that stands in
for taking an exception (60_exceptions.md R206), and the host's list of operations. -/

namespace Sys2Proof.Machine

/-- The byte in cell `i`, none if the cell holds no value (20_memory.md R51). -/
def Memory.read : Memory → Nat → Option Byte
  | [], _ => none
  | (a, v) :: m, i => if a = i then some v else Memory.read m i

/-- Cell `i` becomes the byte `v` and no other cell changes (20_memory.md R53). -/
def Memory.write : Memory → Nat → Byte → Memory
  | [], i, v => [(i, v)]
  | (a, x) :: m, i, v =>
    if i < a then (i, v) :: (a, x) :: m
    else if i = a then (i, v) :: m
    else (a, x) :: Memory.write m i v

/-- Cell `i` loses its value and no other cell changes: what reserving does (20_memory.md R51). -/
def Memory.erase (m : Memory) (i : Nat) : Memory := m.filter fun c => c.1 != i

/-- The canonical form: indices strictly rising (notes/assumptions/6.md). -/
abbrev Memory.wf (m : Memory) : Prop := List.Pairwise (fun c d => c.1 < d.1) m

/-- Every listed cell has an index below `n`. -/
abbrev Memory.below (m : Memory) (n : Nat) : Prop := ∀ c ∈ m, c.1 < n

/-- What follows an operation that completed; a fault or a refusal ends the run (60_exceptions.md R212). -/
def onNext {σ τ : Type} (o : Host.Outcome σ Fault Refusal) (f : σ → Host.Outcome τ Fault Refusal) :
    Host.Outcome τ Fault Refusal :=
  match o with
  | .next s => f s
  | .fault r => .fault r
  | .refused r => .refused r

/-- The response of an operation reaches the host, after those already given (30_encoding.md R84). -/
def State.respond (s : State) (r : Response) : State :=
  { s with host := { s.host with responses := s.host.responses ++ [r] } }

/-- The host's remaining operations (70_reset_and_hazards.md R247). -/
def State.withCommands (s : State) (ws : List CmdWord) : State :=
  { s with host := { s.host with commands := ws } }

/-- The response of the operation performed last, if there was one. -/
def State.lastResponse (s : State) : Option Response := s.host.responses.getLast?

/-- The end of an encoder operation (10_state.md R43): the encoder's new state and the response
`(Done, value)`, or the fault, which has no successor (60_exceptions.md R212). -/
def encoderDone (r : Except Fault Encoder) (value : Encoder → Nat) (s : State) :
    Host.Outcome State Fault Refusal :=
  match r with
  | .error f => .fault f
  | .ok e => .next ({ s with enc := e }.respond ⟨.done, value e⟩)

/-- The end of a decoder operation (10_state.md R43): the decoder's new state and its response. -/
def decoderDone (r : Decoder × Response) (s : State) : Host.Outcome State Fault Refusal :=
  .next ({ s with dec := r.1 }.respond r.2)

/-- `AutoReset` (60_exceptions.md R206): `DW`, `DREM` and `DMAND` return to their initial values;
`DCAP`, `DPHASE` and every cell stay. Nothing is saved. -/
def autoReset (d : Decoder) : Decoder :=
  { d with dw := 0, drem := 0#8, dmand := true }

/-- `raise S(v)` (00_scope.md R10): the automatic reset, then the response with status `S` and value `v`. -/
def raise (st : Status) (v : Nat) (d : Decoder) : Decoder × Response :=
  (autoReset d, ⟨st, v⟩)

end Sys2Proof.Machine
end

