-- ==== Sys2Proof/Machine/Flags.lean ====
section
/-! DEFINITION. The only flag of the block, `DMAND` (10_state.md R34, R38): what a marker makes it
and what it decides. -/

namespace Sys2Proof.Machine

/-- The flag after a consumed marker `m`: set exactly when `m = 0xFF` (43_decoder.md R153). -/
def mandAfterMarker (m : Byte) : Bool := m == Config.codeFull

/-- An implicit delimiter is owed before the next marker exactly when `DMAND = 0` (43_decoder.md R155). -/
def delimiterOwed (d : Decoder) : Bool := !d.dmand

/-- A consumed marker `m`, non-zero, loads the run counter and the flag (43_decoder.md R153). -/
def loadMarker (m : Byte) (d : Decoder) : Decoder :=
  { d with drem := m - 1#8, dmand := mandAfterMarker m }

/-- The decoder's two named states are functions of `DREM` (10_state.md R36). -/
inductive DecState where
  | awaitingMarker
  | inRun (remaining : Nat)
deriving DecidableEq, Repr

/-- The named state the decoder is in (10_state.md R36). -/
def decState (d : Decoder) : DecState :=
  if d.drem = 0#8 then .awaitingMarker else .inRun d.drem.toNat

end Sys2Proof.Machine
end

