-- ==== Sys2Proof/Machine/Operands.lean ====
section
/-! DEFINITION. The three effective-address forms of 20_memory.md R67, each with the range check of
R59. No operation carries an index: every write is at a cursor. -/

namespace Sys2Proof.Machine

/-- `MemWrite(EBUF, i, 1, v)` with the range check of 20_memory.md R59: an index `>= ECAP` faults. -/
def ebufWrite (ecap : Nat) (m : Memory) (i : Nat) (v : Byte) : Except Fault Memory :=
  if i < ecap then .ok (m.write i v) else .error .encBufferOverrun

/-- Form (a) of 20_memory.md R67 in EBUF: `EBUF[ECUR] <- v; ECUR <- ECUR + 1`. -/
def pushEbuf (ecap : Nat) (v : Byte) (e : Encoder) : Except Fault Encoder :=
  match ebufWrite ecap e.ebuf e.ecur v with
  | .error f => .error f
  | .ok m => .ok { e with ebuf := m, ecur := e.ecur + 1 }

/-- Form (a) of 20_memory.md R67 in DBUF: `DBUF[DW] <- v; DW <- DW + 1`. The decoder has tested
`DW = DCAP` before (R59), so this never faults (notes/assumptions/12.md). -/
def pushDbuf (v : Byte) (d : Decoder) : Decoder :=
  { d with dbuf := d.dbuf.write d.dw v, dw := d.dw + 1 }

/-- Form (b) of 20_memory.md R67: the marker back-patch `EBUF[EMARK] <- ECODE`, no cursor modified. -/
def backPatch (ecap : Nat) (e : Encoder) : Except Fault Encoder :=
  match ebufWrite ecap e.ebuf e.emark e.ecode with
  | .error f => .error f
  | .ok m => .ok { e with ebuf := m }

/-- Form (c) of 20_memory.md R67: the reservation `EMARK <- ECUR; ECUR <- ECUR + 1`. The skipped cell
loses its value (R51); reserving is no write and never faults (41_encoder.md R106). -/
def reserve (e : Encoder) : Encoder :=
  { e with emark := e.ecur, ebuf := e.ebuf.erase e.ecur, ecur := e.ecur + 1 }

end Sys2Proof.Machine
end

