-- ==== Sys2Proof/Machine/Decoder.lean ====
section
/-! DEFINITION. The decoder family: `DEC_INIT`, `DEC_BYTE` (43_decoder.md R151, R152). -/

namespace Sys2Proof.Machine

/-- The state after `DEC_INIT cap` (43_decoder.md R151): no DBUF cell changes. -/
def decoderInit (cap : Nat) (d : Decoder) : Decoder :=
  { d with dcap := cap, dw := 0, drem := 0#8, dmand := true, dphase := .ready }

/-- A write to DBUF is needed and no cell is left: the test `DW = DCAP` of 43_decoder.md R152. -/
def bufferFull (d : Decoder) : Bool := d.dw == d.dcap

/-- `DEC_BYTE b` in the state `InRun` (43_decoder.md R157 to R159): `b` stands in a literal position. -/
def decodeLiteral (b : Byte) (d : Decoder) : Decoder × Response :=
  if b = Config.delim then raise .malformedFrame 0 d
  else if bufferFull d then raise .overflow 0 d
  else ({ pushDbuf b d with drem := d.drem - 1#8 }, ⟨.processing, 0⟩)

/-- `DEC_BYTE b` in the state `AwaitingMarker` (43_decoder.md R153 to R156): `b` stands in a marker
position. -/
def decodeMarker (b : Byte) (d : Decoder) : Decoder × Response :=
  if b = Config.delim then raise .frameAvailable d.dw d
  else if delimiterOwed d then
    if bufferFull d then raise .overflow 0 d
    else (loadMarker b (pushDbuf Config.delim d), ⟨.processing, 0⟩)
  else (loadMarker b d, ⟨.processing, 0⟩)

/-- `DEC_BYTE b` on an initialised decoder (43_decoder.md R152). -/
def decoderByte (b : Byte) (d : Decoder) : Decoder × Response :=
  if d.drem = 0#8 then decodeMarker b d else decodeLiteral b d

/-- `DEC_INIT cap` (43_decoder.md R151): legal in every phase, response `(Done, 0)`; fault
`DecCapTooLarge` when `cap > DBUF_SIZE`. -/
def execDecInit (cap : Nat) (s : State) : Host.Outcome State Fault Refusal :=
  if cap ≤ s.params.dbufSize then decoderDone (decoderInit cap s.dec, ⟨.done, 0⟩) s
  else .fault .decCapTooLarge

/-- `DEC_BYTE b` (43_decoder.md R152): one of four statuses; fault `DecNotReady` before the first
`DEC_INIT` (R163). -/
def execDecByte (b : Byte) (s : State) : Host.Outcome State Fault Refusal :=
  if s.dec.dphase = .ready then decoderDone (decoderByte b s.dec) s
  else .fault .decNotReady

end Sys2Proof.Machine
end

