-- ==== Sys2Proof/Machine/Encoder.lean ====
section
/-! DEFINITION. The encoder family: `ENC_INIT`, `ENC_BYTE`, `ENC_FINISH` (41_encoder.md R101 to
R103) over the shared step `CloseRun` (R106). -/

namespace Sys2Proof.Machine

/-- `CloseRun` (41_encoder.md R106): the run's marker goes to the reserved cell, the next cell is
reserved for the marker of a new, empty run. -/
def closeRun (ecap : Nat) (e : Encoder) : Except Fault Encoder :=
  match backPatch ecap e with
  | .error f => .error f
  | .ok e' => .ok { reserve e' with ecode := 1#8 }

/-- The first half of `ENC_BYTE` (41_encoder.md R102): a literal is copied and counted; a 0x00 is not. -/
def copyLiteral (ecap : Nat) (b : Byte) (e : Encoder) : Except Fault Encoder :=
  if b = Config.delim then .ok e
  else
    match pushEbuf ecap b e with
    | .error f => .error f
    | .ok e' => .ok { e' with ecode := e'.ecode + 1#8 }

/-- The state after `ENC_INIT` (41_encoder.md R101): cell 0 is reserved, every other cell stays. -/
def encoderInit (e : Encoder) : Encoder :=
  { ebuf := e.ebuf.erase 0, emark := 0, ecur := 1, ecode := 1#8, ephase := .active }

/-- `ENC_BYTE b` on the encoder (41_encoder.md R102). -/
def encoderByte (ecap : Nat) (b : Byte) (e : Encoder) : Except Fault Encoder :=
  if e.ephase = .active then
    match copyLiteral ecap b e with
    | .error f => .error f
    | .ok e' =>
      if b = Config.delim ∨ e'.ecode = Config.codeFull then closeRun ecap e' else .ok e'
  else .error .encNotActive

/-- `ENC_FINISH` on the encoder (41_encoder.md R103). -/
def encoderFinish (ecap : Nat) (e : Encoder) : Except Fault Encoder :=
  if e.ephase = .active then
    match backPatch ecap e with
    | .error f => .error f
    | .ok e' =>
      match pushEbuf ecap Config.delim e' with
      | .error f => .error f
      | .ok e'' => .ok { e'' with ephase := .final }
  else .error .encNotActive

/-- `ENC_INIT` (41_encoder.md R101): legal in every phase, response `(Done, 0)`. -/
def execEncInit (s : State) : Host.Outcome State Fault Refusal :=
  encoderDone (.ok (encoderInit s.enc)) (fun _ => 0) s

/-- `ENC_BYTE b` (41_encoder.md R102): response `(Done, 0)`; faults `EncNotActive`, `EncBufferOverrun`. -/
def execEncByte (b : Byte) (s : State) : Host.Outcome State Fault Refusal :=
  encoderDone (encoderByte s.params.ecap b s.enc) (fun _ => 0) s

/-- `ENC_FINISH` (41_encoder.md R103): response `(Done, ECUR)` with the new `ECUR`, the frame's length. -/
def execEncFinish (s : State) : Host.Outcome State Fault Refusal :=
  encoderDone (encoderFinish s.params.ecap s.enc) (fun e => e.ecur) s

end Sys2Proof.Machine
end

