-- ==== Sys2Proof/Machine/Dispatch.lean ====
section
/-! DEFINITION. One arm per operation (30_encoding.md R80), each one call of its meaning. -/

namespace Sys2Proof.Machine

def exec (i : Instr) (s : State) : Host.Outcome State Fault Refusal :=
  match i with
  | .encInit => Sys2Proof.Machine.execEncInit s
  | .encByte b => Sys2Proof.Machine.execEncByte b s
  | .encFinish => Sys2Proof.Machine.execEncFinish s
  | .decInit cap => Sys2Proof.Machine.execDecInit cap s
  | .decByte b => Sys2Proof.Machine.execDecByte b s

end Sys2Proof.Machine
end

