-- ==== Sys2Proof/Machine/Step.lean ====
section
/-! DEFINITION. One step: one operation issued by the host, performed whole (00_scope.md R9). -/

namespace Sys2Proof.Machine

/-- The next operation of the host's list is taken from it and performed (00_scope.md R9,
70_reset_and_hazards.md R247). A word that spells none is refused (30_encoding.md R83); with no
operation left the run has ended and the step is refused (notes/assumptions/3.md). -/
def step (s : State) : Host.Outcome State Fault Refusal :=
  match s.host.commands with
  | [] => .refused .noCommand
  | w :: rest =>
    match decode w with
    | .error why => .refused (.illegalCommand why)
    | .ok i => exec i (s.withCommands rest)

/-- The host issues the table's word as its next operation; nothing else changes
(notes/assumptions/1.md). -/
def State.withFetchWord (s : State) (nbits w : Nat) : State :=
  s.withCommands (tableWord nbits w :: s.host.commands)

end Sys2Proof.Machine
end

