-- ==== Sys2Proof/Machine/Capacity.lean ====
section
/-! DEFINITION. The capacity functions (44_capacity_functions.md): pure functions on naturals, no
operations of the block (30_encoding.md R89), without overflow (R197). -/

namespace Sys2Proof.Machine

/-- `MaxEncodeLen(d)`, exactly as the source gives it (44_capacity_functions.md R191). -/
def maxEncodeLen (d : Nat) : Nat := if d = 0 then 2 else d + (d + 253) / 254 + 1

/-- `MaxDecodeLen(e)`, for a frame length with the terminator counted (44_capacity_functions.md R192). -/
def maxDecodeLen (e : Nat) : Nat := if e ≤ 1 then 0 else e - 2

/-- `SafeEncodeLen(d) = d + floor(d/254) + 2` (44_capacity_functions.md R194). -/
def safeEncodeLen (d : Nat) : Nat := d + d / 254 + 2

end Sys2Proof.Machine
end

