-- ==== Sys2Proof/Machine/Crc.lean ====
section
/-! DEFINITION. The CRC engine (42_crc_engine.md), a companion outside the core: pure functions from a
variant, whose table is data supplied from outside (R137), and bytes to a checksum. It has no state
in the block: the accumulator is the caller's (R131). -/

namespace Sys2Proof.Machine

/-- The widths of 42_crc_engine.md R130. -/
inductive CrcWidth where
  | w8
  | w16
  | w32
deriving DecidableEq, Repr

/-- The width in bits. -/
abbrev CrcWidth.bits : CrcWidth → Nat
  | .w8 => 8
  | .w16 => 16
  | .w32 => 32

/-- A CRC variant, the record `V` of 42_crc_engine.md R130, its width a field (R139). The table is a
list of 256 entries, plain data (notes/assumptions/18.md). -/
structure CrcVariant where
  width : CrcWidth
  table : List (BitVec width.bits)
  init : BitVec width.bits
  xorout : BitVec width.bits
  reflected : Bool

/-- The table has its 256 entries (42_crc_engine.md R130). -/
def CrcVariant.wf (v : CrcVariant) : Bool := v.table.length == 256

/-- The table entry a byte selects. -/
def crcEntry (v : CrcVariant) (index : Byte) : BitVec v.width.bits := v.table.getD index.toNat 0

/-- Per-byte update, reflected variant (42_crc_engine.md R132): the index is the accumulator's low byte
XOR `b`; for `W = 8` there is no shift. -/
def crcUpdateReflected (v : CrcVariant) (crc : BitVec v.width.bits) (b : Byte) :
    BitVec v.width.bits :=
  let entry := crcEntry v ((crc ^^^ b.setWidth v.width.bits).setWidth 8)
  if v.width = .w8 then entry else (crc >>> 8) ^^^ entry

/-- Per-byte update, normal variant (42_crc_engine.md R133): the index is the accumulator's high byte
XOR `b`; the shift left is truncated to `W` bits. -/
def crcUpdateNormal (v : CrcVariant) (crc : BitVec v.width.bits) (b : Byte) :
    BitVec v.width.bits :=
  (crc <<< 8) ^^^ crcEntry v ((crc >>> (v.width.bits - 8)).setWidth 8 ^^^ b)

/-- Per-byte update of a variant (42_crc_engine.md R132, R133). -/
def crcUpdate (v : CrcVariant) (crc : BitVec v.width.bits) (b : Byte) : BitVec v.width.bits :=
  if v.reflected then crcUpdateReflected v crc b else crcUpdateNormal v crc b

/-- Incremental use (42_crc_engine.md R135): the accumulator after more bytes. -/
def crcFeed (v : CrcVariant) (crc : BitVec v.width.bits) : List Byte → BitVec v.width.bits
  | [] => crc
  | b :: bs => crcFeed v (crcUpdate v crc b) bs

/-- Incremental use (42_crc_engine.md R135): reading the checksum leaves the accumulator as it is. -/
def crcRead (v : CrcVariant) (crc : BitVec v.width.bits) : BitVec v.width.bits := crc ^^^ v.xorout

/-- The whole-block checksum (42_crc_engine.md R134). -/
def crcBlock (v : CrcVariant) (bytes : List Byte) : BitVec v.width.bits :=
  bytes.foldl (crcUpdate v) v.init ^^^ v.xorout

end Sys2Proof.Machine
end

