-- ==== Sys2Proof/Machine/Frame.lean ====
section
/-! DEFINITION. The COBS frame as pure functions on byte sequences: the grammar (30_encoding.md R70 to
R74), the reference decoding `Unstuff` (R75), the function `Stuff` the encoder computes
(41_encoder.md R112) and the length `EncLen` (R113). -/

namespace Sys2Proof.Machine

/-- The kinds of byte met where a marker is expected (30_encoding.md R79, the table after it). -/
inductive MarkKind where
  /-- `TERM`: end of frame. -/
  | term
  /-- `MARK_N`: `n - 1` literals follow, an implicit delimiter is owed afterwards. -/
  | markN (literals : Nat)
  /-- `MARK_FF`: 254 literals follow, no implicit delimiter is owed afterwards. -/
  | markFF
deriving DecidableEq, Repr

/-- The kind of a byte in a marker position (30_encoding.md R72, R73). -/
def markKind (m : Byte) : MarkKind :=
  if m = Config.delim then .term
  else if m = Config.codeFull then .markFF
  else .markN (m.toNat - 1)

/-- The bytes of one run: its marker, the literal count plus one, then its literals (30_encoding.md R71). -/
def runBytes (lits : List Byte) : List Byte := BitVec.ofNat 8 (lits.length + 1) :: lits

/-- A frame from its runs: `run+ TERM` (30_encoding.md R71). -/
def frameBytes (runs : List (List Byte)) : List Byte :=
  (runs.map runBytes).flatten ++ [Config.delim]

/-- Runs of the grammar of 30_encoding.md R71: one or more, each of at most 254 non-zero literals. -/
def legalRuns (runs : List (List Byte)) : Bool :=
  !runs.isEmpty && runs.all fun lits =>
    decide (lits.length ≤ Config.runCap) && lits.all fun b => b != Config.delim

/-- The first side condition of 30_encoding.md R71: a full run is never directly before the terminator. -/
def lastRunNotFull (runs : List (List Byte)) : Bool :=
  match runs.getLast? with
  | some lits => lits.length != Config.runCap
  | none => true

/-- What runs stand for (30_encoding.md R72, R74): each its literals, followed by one payload 0x00 unless
the run is full or the last. -/
def payloadOfRuns : List (List Byte) → List Byte
  | [] => []
  | [lits] => lits
  | lits :: r :: rs =>
    if lits.length = Config.runCap then lits ++ payloadOfRuns (r :: rs)
    else lits ++ Config.delim :: payloadOfRuns (r :: rs)

/-- A byte sequence whose last byte is 0x00 and which has no other 0x00 (30_encoding.md R75). -/
def frameShaped (f : List Byte) : Bool :=
  f.getLast? == some Config.delim && f.dropLast.all fun b => b != Config.delim

/-- The loop of `Unstuff` (30_encoding.md R75) on the bytes still to read: `nothingOwed` is `first or
prev_full`. One turn takes one marker and its literals, so as many turns as bytes are enough. -/
def unstuffLoop : Nat → Bool → List Byte → Option (List Byte)
  | 0, _, _ => none
  | _ + 1, _, [] => none
  | n + 1, nothingOwed, m :: rest =>
    if m = Config.delim then some []
    else if rest.length ≤ m.toNat - 1 then none
    else
      match unstuffLoop n (m == Config.codeFull) (rest.drop (m.toNat - 1)) with
      | none => none
      | some out =>
        some ((if nothingOwed then [] else [Config.delim]) ++ (rest.take (m.toNat - 1) ++ out))

/-- `Unstuff(f)` (30_encoding.md R75); none where it is undefined: `f` is not of the shape R75 asks, or a
run would swallow the terminator. -/
def unstuff (f : List Byte) : Option (List Byte) :=
  if frameShaped f then unstuffLoop f.length true f else none

/-- `b` cut at its 0x00 bytes into segments of non-zero bytes (41_encoder.md R112). -/
def segments : List Byte → List (List Byte)
  | [] => [[]]
  | b :: bs =>
    if b = Config.delim then [] :: segments bs
    else
      match segments bs with
      | s :: ss => (b :: s) :: ss
      | [] => [[b]]

/-- `k` full runs, then one last run of what is left (41_encoder.md R112). -/
def segRuns : Nat → List Byte → List Byte
  | 0, s => runBytes s
  | k + 1, s => Config.codeFull :: (s.take Config.runCap ++ segRuns k (s.drop Config.runCap))

/-- `Seg(s)`: `floor(k/254)` full runs and one last run of `k mod 254` literals (41_encoder.md R112). -/
def seg (s : List Byte) : List Byte := segRuns (s.length / Config.runCap) s

/-- `Stuff(b)`, the frame for payload `b` (41_encoder.md R112). -/
def stuff (b : List Byte) : List Byte := ((segments b).map seg).flatten ++ [Config.delim]

/-- `F(b)`, the number of full runs (41_encoder.md R113). -/
def fullRunCount (b : List Byte) : Nat := ((segments b).map fun s => s.length / Config.runCap).sum

/-- `EncLen(b) = len(b) + 2 + F(b)` (41_encoder.md R113). -/
def encLen (b : List Byte) : Nat := b.length + 2 + fullRunCount b

end Sys2Proof.Machine
end

