-- ==== Sys2Proof/Machine/HostAccess.lean ====
section
/-! DEFINITION. What the host may do beside issuing operations: read a buffer between operations
(20_memory.md R54, R64). It never writes one and never reads a register (70_reset_and_hazards.md R246). -/

namespace Sys2Proof.Machine

/-- The two address spaces of the block (20_memory.md R50). -/
inductive Space where
  | ebuf
  | dbuf
deriving DecidableEq, Repr

/-- Number of cells of a space (20_memory.md R50). -/
def spaceSize (sp : Space) (s : State) : Nat :=
  match sp with
  | .ebuf => s.params.ecap
  | .dbuf => s.params.dbufSize

/-- The cells of a space. -/
def spaceCells (sp : Space) (s : State) : Memory :=
  match sp with
  | .ebuf => s.enc.ebuf
  | .dbuf => s.dec.dbuf

/-- `MemRead(S, i, 1)` (20_memory.md R54): the byte in the cell; refused if the cell holds no value, and
at an index where the space has no cell (notes/assumptions/11.md). Reading changes nothing (R57). -/
def hostRead (sp : Space) (i : Nat) (s : State) : Host.Outcome Byte Fault Refusal :=
  if i < spaceSize sp s then
    match (spaceCells sp s).read i with
    | some v => .next v
    | none => .refused .cellWithoutValue
  else .refused .noSuchCell

/-- The host reads the `n` cells from index `i` on, in index order (20_memory.md R55). -/
def hostReadFrom (sp : Space) (i : Nat) (s : State) : Nat → Host.Outcome (List Byte) Fault Refusal
  | 0 => .next []
  | n + 1 => onNext (hostRead sp i s) fun v =>
      onNext (hostReadFrom sp (i + 1) s n) fun vs => .next (v :: vs)

end Sys2Proof.Machine
end

