-- ==== Sys2Proof/Machine/Pseudo.lean ====
section
/-! DEFINITION. Runs (70_reset_and_hazards.md R247) and the four pseudo-operations of 30_encoding.md
R88: macros the host expands into the five operations, without state or command word of their own. -/

namespace Sys2Proof.Machine

/-- A run: a finite list of operations applied in order; it ends when the list is exhausted and has no
final state if one of them faulted (70_reset_and_hazards.md R247). -/
def runOps : List Instr → State → Host.Outcome State Fault Refusal
  | [], s => .next s
  | i :: is, s => onNext (exec i s) (runOps is)

/-- The response to the operation performed last. Every completed operation gives one (30_encoding.md
R84), so the default is never taken after an operation. -/
def responseOf (s : State) : Response := s.lastResponse.getD ⟨.done, 0⟩

/-- The expansion of `ENC_CHUNK` (41_encoder.md R104). -/
def encChunkOps (bs : List Byte) : List Instr := bs.map .encByte

/-- The expansion of `ENC_FRAME` (41_encoder.md R105). -/
def encFrameOps (bs : List Byte) : List Instr := .encInit :: (encChunkOps bs ++ [.encFinish])

/-- `ENC_CHUNK [b0, ..., bk-1]` (41_encoder.md R104): response `(Done, 0)`. -/
def encChunk (bs : List Byte) (s : State) : Host.Outcome (State × Response) Fault Refusal :=
  onNext (runOps (encChunkOps bs) s) fun t => .next (t, ⟨.done, 0⟩)

/-- `ENC_FRAME [b0, ..., bk-1]` (41_encoder.md R105): its response is that of the `ENC_FINISH`. -/
def encFrame (bs : List Byte) (s : State) : Host.Outcome (State × Response) Fault Refusal :=
  onNext (runOps (encFrameOps bs) s) fun t => .next (t, responseOf t)

/-- The result of `DEC_FEED`: status, value, number of bytes consumed (43_decoder.md R160). -/
structure FeedResult where
  status : Status
  value : Nat
  consumed : Nat
deriving DecidableEq, Repr

/-- One more byte consumed before the rest of the feed. -/
def FeedResult.afterOneMore (r : FeedResult) : FeedResult := { r with consumed := r.consumed + 1 }

/-- `DEC_FEED [c0, ..., ck-1]` (43_decoder.md R160): a loop of `DEC_BYTE` from the current state, ended by
the first status other than `Processing`; `IncompleteFrame` leaves the decoder mid-frame. -/
def decFeed : List Byte → State → Host.Outcome (State × FeedResult) Fault Refusal
  | [], s => .next (s, ⟨.incompleteFrame, 0, 0⟩)
  | c :: cs, s => onNext (exec (.decByte c) s) fun t =>
      if (responseOf t).status = .processing then
        onNext (decFeed cs t) fun r => .next (r.1, r.2.afterOneMore)
      else .next (t, ⟨(responseOf t).status, (responseOf t).value, 1⟩)

/-- `DEC_ONESHOT cap [c0, ..., ck-1]` (43_decoder.md R161). -/
def decOneshot (cap : Nat) (cs : List Byte) (s : State) :
    Host.Outcome (State × FeedResult) Fault Refusal :=
  onNext (exec (.decInit cap) s) (decFeed cs)

/-- The source's `encode(b)` (30_encoding.md R88): `ENC_FRAME b`, then the host reads EBUF cells 0 to
`L - 1`. -/
def encodeCall (bs : List Byte) (s : State) : Host.Outcome (State × List Byte) Fault Refusal :=
  onNext (encFrame bs s) fun r =>
    onNext (hostReadFrom .ebuf 0 r.1 r.2.value) fun vs => .next (r.1, vs)

/-- The source's `decode(f)` (30_encoding.md R88): `DEC_ONESHOT cap f`, then the host reads the payload
from DBUF, cells 0 to `value - 1` (`value` is 0 unless the status is `FrameAvailable`). -/
def decodeCall (cap : Nat) (cs : List Byte) (s : State) :
    Host.Outcome (State × Status × List Byte) Fault Refusal :=
  onNext (decOneshot cap cs s) fun r =>
    onNext (hostReadFrom .dbuf 0 r.1 r.2.value) fun vs => .next (r.1, r.2.status, vs)

end Sys2Proof.Machine
end

