-- ==== Sys2Proof/Safety.lean ====
section
/-! DEFINITION. What holds between operations: the invariants of 10_state.md R28, R37 and R42 and the
canonical form of the buffers, in the terms statements use. -/

namespace Sys2Proof.Machine

/-- Cells 0 to `n - 1` all hold a byte. -/
def Memory.filled (m : Memory) (n : Nat) : Prop := ∀ i, i < n → (m.read i).isSome

/-- From the marker cell `i`, closed marker by closed marker, each holding the distance to the next one
(10_state.md R29), to the cell `j`. -/
inductive MarkerChain (m : Memory) : Nat → Nat → Prop where
  | stop (i : Nat) : MarkerChain m i i
  | jump (i j : Nat) (v : Byte) (h : m.read i = some v) (pos : 1 ≤ v.toNat)
      (rest : MarkerChain m (i + v.toNat) j) : MarkerChain m i j

/-- The encoder between operations, for a buffer of `ecap` cells: EBUF in its canonical form inside
0 to `ECAP - 1` (20_memory.md R50), the cursors in their ranges (10_state.md R21), and in phase
`Active` the reserved cell without a value (R51), `ECUR = EMARK + ECODE` and `1 <= ECODE <= 254` (R28),
every other cell below `ECUR` a non-zero byte (41_encoder.md R114, R116), the closed markers a chain
from cell 0 to `EMARK` (R29); in phase `Final` a frame without a gap (41_encoder.md R117). -/
structure Encoder.Inv (ecap : Nat) (e : Encoder) : Prop where
  canonical : e.ebuf.wf
  inside : e.ebuf.below ecap
  markRange : e.emark ≤ ecap
  curRange : e.ecur ≤ ecap + 1
  reserved : e.ephase = .active → e.ebuf.read e.emark = none
  cursor : e.ephase = .active → e.ecur = e.emark + e.ecode.toNat
  codeLow : e.ephase = .active → 1 ≤ e.ecode.toNat
  codeHigh : e.ephase = .active → e.ecode.toNat ≤ 254
  written : e.ephase = .active → ∀ i, i < e.ecur → i ≠ e.emark → (e.ebuf.read i).isSome
  noZero : e.ephase = .active → ∀ i, i < e.ecur → e.ebuf.read i ≠ some Config.delim
  markers : e.ephase = .active → MarkerChain e.ebuf 0 e.emark
  finished : e.ephase = .final → e.ebuf.filled e.ecur

/-- The decoder between operations, for a buffer of `size` cells: DBUF in its canonical form inside 0
to `DBUF_SIZE - 1`, `DREM <= 254`, and in phase `Ready` 10_state.md R37: `DW <= DCAP <= DBUF_SIZE`,
cells 0 to `DW - 1` holding bytes. -/
structure Decoder.Inv (size : Nat) (d : Decoder) : Prop where
  canonical : d.dbuf.wf
  inside : d.dbuf.below size
  cursor : d.dw ≤ d.dcap
  capRange : d.dcap ≤ size
  remRange : d.drem.toNat ≤ 254
  payload : d.dbuf.filled d.dw

/-- The invariant of the machine: R8's side conditions and both instances'. With them every register
fits its width (10_state.md R42). -/
structure State.Inv (s : State) : Prop where
  params : s.params.WF
  enc : s.enc.Inv s.params.ecap
  dec : s.dec.Inv s.params.dbufSize

/-- The decoder's registers as every reset leaves them (10_state.md R40, 60_exceptions.md R206). -/
def Decoder.initial (d : Decoder) : Prop := d.dw = 0 ∧ d.drem = 0#8 ∧ d.dmand = true

/-- An `ENC_BYTE b` on this encoder closes the run: on a 0x00, and on the literal that makes the run
full (41_encoder.md R102, R107). -/
def closesRun (b : Byte) (e : Encoder) : Prop :=
  b = Config.delim ∨ e.ecode + 1#8 = Config.codeFull

/-- The cell an `ENC_BYTE b` that closes the run reserves: the one after the bytes it has copied
(41_encoder.md R106). -/
def nextMark (b : Byte) (e : Encoder) : Nat := if b = Config.delim then e.ecur else e.ecur + 1

/-- The conditions of the table of 60_exceptions.md R211, fault by fault. -/
def brokenPrecondition (i : Instr) (s : State) : Fault → Prop
  | .encBufferOverrun =>
    s.enc.ephase = .active ∧
      ((∃ b, i = .encByte b ∧
          ((b ≠ Config.delim ∧ s.params.ecap ≤ s.enc.ecur) ∨
           (closesRun b s.enc ∧ s.params.ecap ≤ s.enc.emark))) ∨
       (i = .encFinish ∧ (s.params.ecap ≤ s.enc.emark ∨ s.params.ecap ≤ s.enc.ecur)))
  | .encNotActive =>
    (s.enc.ephase = .uninit ∨ s.enc.ephase = .final) ∧ ((∃ b, i = .encByte b) ∨ i = .encFinish)
  | .decNotReady => s.dec.dphase = .uninit ∧ ∃ b, i = .decByte b
  | .decCapTooLarge => ∃ cap, i = .decInit cap ∧ s.params.dbufSize < cap

/-- The statuses an operation can return (60_exceptions.md R201). -/
def returnable : Instr → Status → Bool
  | .decByte _, st => st == .processing || st == .frameAvailable || st == .malformedFrame || st == .overflow
  | .encInit, st => st == .done
  | .encByte _, st => st == .done
  | .encFinish, st => st == .done
  | .decInit _, st => st == .done

/-- Other values in the encoder's registers (10_state.md R40). -/
def State.withEncRegs (s : State) (emark ecur : Nat) (ecode : Byte) : State :=
  { s with enc := { s.enc with emark := emark, ecur := ecur, ecode := ecode } }

/-- Other values in the decoder's registers (10_state.md R40). -/
def State.withDecRegs (s : State) (dcap dw : Nat) (drem : Byte) (dmand : Bool) : State :=
  { s with dec := { s.dec with dcap := dcap, dw := dw, drem := drem, dmand := dmand } }

/-- Other contents in both buffers. -/
def State.withBuffers (s : State) (ebuf dbuf : Memory) : State :=
  { s with enc := { s.enc with ebuf := ebuf }, dec := { s.dec with dbuf := dbuf } }

/-- The cells from index `i` on hold the bytes of `bs`, in order (20_memory.md R55). -/
def Memory.holdsFrom (m : Memory) : Nat → List Byte → Prop
  | _, [] => True
  | i, b :: bs => m.read i = some b ∧ Memory.holdsFrom m (i + 1) bs

/-- Cells 0, 1, ... hold the bytes of `bs` (20_memory.md R58). -/
abbrev Memory.holds (m : Memory) (bs : List Byte) : Prop := Memory.holdsFrom m 0 bs

/-- An operation of the encoder instance (10_state.md R43). -/
def isEncoderOp : Instr → Bool
  | .encInit => true
  | .encByte _ => true
  | .encFinish => true
  | .decInit _ => false
  | .decByte _ => false

end Sys2Proof.Machine
end

