-- ==== Sys2Proof/Certificates/Slice0/Obligations.lean ====
section
/-! DEFINITION. The statements for the provers, each a rule of the spec about what an operation or the
machine does. -/

open Sys2Proof Sys2Proof.Machine

/-! ## Command and response words -/

/-- Every well-formed operation's command word decodes to it, every operand at every value (30_encoding.md
R81, R82: the encoding is the
spec's own decision, 92_eei_decisions.md D2). -/
def Obligations.DecodeOfEncode : Prop :=
  ∀ i : Instr, i.wf = true → decode (encode i) = .ok i

/-- A word that decodes is the word of the well-formed operation it decodes to: no bit is ignored
(30_encoding.md R82, R83: the spec's own decisions,
92_eei_decisions.md D2 and D27). -/
def Obligations.EncodeOfDecode : Prop :=
  ∀ (w : CmdWord) (i : Instr), decode w = .ok i → i.wf = true ∧ encode i = w

/-- A word that matches a row of the table decodes to an operation of that row's mnemonic, so no two rows
overlap (30_encoding.md R82: the spec's own decision,
92_eei_decisions.md D2). -/
def Obligations.MatchedWordIsItsRow : Prop :=
  ∀ r ∈ opcodeTable, ∀ w : CmdWord, rowMatches r w = true →
    ∃ i, decode w = .ok i ∧ mnemonicOf i = r.mnemonic

/-- A word that matches no row spells no operation: the verdict is `Illegal` and the step refuses it, so
there is no next state and no response (30_encoding.md R83: the spec's own decision,
92_eei_decisions.md D27; that the run then stops is the model's, entry 14). -/
def Obligations.UnmatchedWordIsRefused : Prop :=
  ∀ (s : State) (w : CmdWord) (rest : List CmdWord),
    (∀ r ∈ opcodeTable, rowMatches r w = false) → s.host.commands = w :: rest →
    ∃ why, decode w = .error why ∧ step s = .refused (.illegalCommand why)

/-- The numeric words of the five operations, operand by operand (30_encoding.md R82: the spec's own
decision, 92_eei_decisions.md D2). -/
def Obligations.WordsOfOperations : Prop :=
  (encode .encInit).toNat = 0x0100000000 ∧
  (∀ b : Byte, (encode (.encByte b)).toNat = 0x0200000000 + b.toNat) ∧
  (encode .encFinish).toNat = 0x0300000000 ∧
  (∀ cap : Nat, cap < 2 ^ 32 → (encode (.decInit cap)).toNat = 0x1100000000 + cap) ∧
  (∀ b : Byte, (encode (.decByte b)).toNat = 0x1200000000 + b.toNat)

/-- The sample words W1 to W12 of 95_test_vectors.md section 2.6 decode as that table says: the encodings are
the spec's own decision, 92_eei_decisions.md D2. -/
def Obligations.SampleWordsDecode : Prop :=
  decode 0x0100000000#40 = .ok .encInit ∧
  decode 0x0200000011#40 = .ok (.encByte 0x11#8) ∧
  decode 0x0200000000#40 = .ok (.encByte 0x00#8) ∧
  decode 0x0300000000#40 = .ok .encFinish ∧
  decode 0x1100000004#40 = .ok (.decInit 4) ∧
  decode 0x11FFFFFFFF#40 = .ok (.decInit 4294967295) ∧
  decode 0x12000000FF#40 = .ok (.decByte 0xFF#8) ∧
  decode 0x0200000111#40 = .error .mustBeZero ∧
  decode 0x0100000001#40 = .error .mustBeZero ∧
  decode 0x0000000000#40 = .error .unassignedOp ∧
  decode 0x0400000000#40 = .error .unassignedOp ∧
  decode 0x1300000000#40 = .error .unassignedOp

/-- The fields of a response word, and that a reader gets the response back (30_encoding.md R84,
R86: the spec's own decision, 92_eei_decisions.md D3; that a reader refuses reserved codes is the model's,
entry 15). -/
def Obligations.ResponseWordFields : Prop :=
  ∀ r : Response, r.wf = true →
    (encodeResponse r).extractLsb' 35 5 = 0#5 ∧
    (encodeResponse r).extractLsb' 32 3 = statusCode r.status ∧
    ((encodeResponse r).extractLsb' 0 32).toNat = r.value ∧
    decodeResponse (encodeResponse r) = some r

/-! ## The step -/

/-- A step takes the host's next word and performs the operation it decodes to on the state with the rest
of the list (00_scope.md R9; that the list stands in the state is the model's, entry 1). -/
def Obligations.StepRunsDecodedCommand : Prop :=
  ∀ (s : State) (w : CmdWord) (rest : List CmdWord) (i : Instr),
    s.host.commands = w :: rest → decode w = .ok i → step s = exec i (s.withCommands rest)

/-- With no operation left the run has ended and the step is refused (70_reset_and_hazards.md R247; the
refusal is the model's choice, entry 3). -/
def Obligations.StepStopsWithoutCommand : Prop :=
  ∀ s : State, s.host.commands = [] → step s = .refused .noCommand

/-- Issuing a list of operations as command words and stepping once for each is the run of the list: the
operations in order, ended by the first fault (70_reset_and_hazards.md R247, the spec's own decision D26;
the command words are the model's, entry 1). -/
def Obligations.RunOfCommandWords : Prop :=
  ∀ (ops : List Instr) (s : State) (rest : List CmdWord), (∀ i ∈ ops, i.wf = true) →
    core.run ops.length (s.withCommands (ops.map encode ++ rest)) =
      runOps ops (s.withCommands rest)

/-- An operation faults exactly on the broken preconditions of 60_exceptions.md R211, is never refused,
and otherwise completes. The faults are the spec's own decisions, 92_eei_decisions.md D5, D7, D8 and D17,
and that they end the run is the model's, entry 9. -/
def Obligations.FaultsExactlyOnBrokenPreconditions : Prop :=
  ∀ (i : Instr) (s : State),
    (∀ f, exec i s = .fault f ↔ brokenPrecondition i s f) ∧
    (∀ r, exec i s ≠ .refused r) ∧
    ((∀ f, ¬ brokenPrecondition i s f) → ∃ t, exec i s = .next t)

/-! ## The encoder -/

/-- `ENC_INIT` completes from every state and in every phase: cell 0 is reserved, the registers are 0, 1, 1,
the phase is `Active`; no other cell and nothing of the decoder changes (41_encoder.md R101; the values 0, 1, 1
are an inference the spec marks as its own there). -/
def Obligations.EncInitStartsFrame : Prop :=
  ∀ s : State, ∃ t, exec .encInit s = .next t ∧
    t.enc.emark = 0 ∧ t.enc.ecur = 1 ∧ t.enc.ecode = 1#8 ∧ t.enc.ephase = .active ∧
    t.enc.ebuf.read 0 = none ∧
    (∀ a, a ≠ 0 → t.enc.ebuf.read a = s.enc.ebuf.read a) ∧
    t.dec = s.dec ∧ t.params = s.params ∧ t.host.commands = s.host.commands ∧
    t.host.responses = s.host.responses ++ [⟨.done, 0⟩]

/-- `ENC_BYTE b` with a non-zero byte that does not fill the run copies and counts the literal
(41_encoder.md R102). -/
def Obligations.EncByteCopiesLiteral : Prop :=
  ∀ (b : Byte) (s : State), s.enc.ephase = .active → b ≠ 0x00#8 → s.enc.ecode ≠ 0xFE#8 →
    s.enc.ecur < s.params.ecap →
    ∃ t, exec (.encByte b) s = .next t ∧
      t.enc.ebuf.read s.enc.ecur = some b ∧
      (∀ a, a ≠ s.enc.ecur → t.enc.ebuf.read a = s.enc.ebuf.read a) ∧
      t.enc.ecur = s.enc.ecur + 1 ∧ t.enc.ecode = s.enc.ecode + 1#8 ∧
      t.enc.emark = s.enc.emark ∧ t.enc.ephase = .active ∧
      t.host.responses = s.host.responses ++ [⟨.done, 0⟩]

/-- `ENC_BYTE 0x00` is not copied: it closes the run, whose marker goes to the reserved cell, and reserves
the next cell, even one outside the buffer (41_encoder.md R102, R106). -/
def Obligations.EncByteZeroClosesRun : Prop :=
  ∀ s : State, s.Inv → s.enc.ephase = .active → s.enc.emark < s.params.ecap →
    ∃ t, exec (.encByte 0x00#8) s = .next t ∧
      t.enc.ebuf.read s.enc.emark = some s.enc.ecode ∧
      t.enc.ebuf.read s.enc.ecur = none ∧
      (∀ a, a ≠ s.enc.emark → a ≠ s.enc.ecur → t.enc.ebuf.read a = s.enc.ebuf.read a) ∧
      t.enc.emark = s.enc.ecur ∧ t.enc.ecur = s.enc.ecur + 1 ∧ t.enc.ecode = 1#8 ∧
      t.enc.ephase = .active ∧ t.host.responses = s.host.responses ++ [⟨.done, 0⟩]

/-- The `ENC_BYTE` that copies the 254th literal closes the run at once with marker 0xFF and reserves the
next marker cell in the same operation (41_encoder.md R102, R106, R107). -/
def Obligations.EncByteClosesFullRun : Prop :=
  ∀ (b : Byte) (s : State), s.Inv → s.enc.ephase = .active → b ≠ 0x00#8 → s.enc.ecode = 0xFE#8 →
    s.enc.ecur < s.params.ecap →
    ∃ t, exec (.encByte b) s = .next t ∧
      t.enc.ebuf.read s.enc.ecur = some b ∧
      t.enc.ebuf.read s.enc.emark = some 0xFF#8 ∧
      t.enc.ebuf.read (s.enc.ecur + 1) = none ∧
      (∀ a, a ≠ s.enc.ecur → a ≠ s.enc.emark → a ≠ s.enc.ecur + 1 →
        t.enc.ebuf.read a = s.enc.ebuf.read a) ∧
      t.enc.emark = s.enc.ecur + 1 ∧ t.enc.ecur = s.enc.ecur + 2 ∧ t.enc.ecode = 1#8 ∧
      t.enc.ephase = .active ∧ t.host.responses = s.host.responses ++ [⟨.done, 0⟩]

/-- `ENC_FINISH`: the last marker, 1 to 254, and the terminator are written, the phase is `Final`, the
response is the frame's length; `EMARK` and `ECODE` stay; outside `Active` and past the buffer it faults
(41_encoder.md R103). -/
def Obligations.EncFinishTerminatesFrame : Prop :=
  ∀ s : State, s.Inv →
    (s.enc.ephase = .active → s.enc.ecur < s.params.ecap →
      ∃ t, exec .encFinish s = .next t ∧
        t.enc.ebuf.read s.enc.emark = some s.enc.ecode ∧
        1 ≤ s.enc.ecode.toNat ∧ s.enc.ecode.toNat ≤ 254 ∧
        t.enc.ebuf.read s.enc.ecur = some 0x00#8 ∧
        (∀ a, a ≠ s.enc.emark → a ≠ s.enc.ecur → t.enc.ebuf.read a = s.enc.ebuf.read a) ∧
        t.enc.ecur = s.enc.ecur + 1 ∧ t.enc.ephase = .final ∧
        t.enc.emark = s.enc.emark ∧ t.enc.ecode = s.enc.ecode ∧
        t.host.responses = s.host.responses ++ [⟨.done, s.enc.ecur + 1⟩]) ∧
    (s.enc.ephase = .active → s.params.ecap ≤ s.enc.ecur →
      exec .encFinish s = .fault .encBufferOverrun) ∧
    (s.enc.ephase ≠ .active → exec .encFinish s = .fault .encNotActive)

/-- `ENC_BYTE` and `ENC_FINISH` fault in the phases `Uninit` and `Final` (41_encoder.md R119: the spec's
own decision, 92_eei_decisions.md D7). -/
def Obligations.EncoderNotActiveFaults : Prop :=
  ∀ (b : Byte) (s : State), (s.enc.ephase = .uninit ∨ s.enc.ephase = .final) →
    exec (.encByte b) s = .fault .encNotActive ∧ exec .encFinish s = .fault .encNotActive

/-- The frame of the encoder operations (20_memory.md R60, R67; R60 is the spec's own decision D10): each EBUF
cell but those named, every register but those named, all of the decoder, the parameters and the host's
list are unchanged. -/
def Obligations.EncoderOperationsFrame : Prop :=
  ∀ (s t : State),
    (exec .encInit s = .next t →
      (∀ a, a ≠ 0 → t.enc.ebuf.read a = s.enc.ebuf.read a) ∧
      t.dec = s.dec ∧ t.params = s.params ∧ t.host.commands = s.host.commands) ∧
    (∀ b, exec (.encByte b) s = .next t →
      (∀ a, (b ≠ Config.delim → a ≠ s.enc.ecur) →
        (closesRun b s.enc → a ≠ s.enc.emark ∧ a ≠ nextMark b s.enc) →
        t.enc.ebuf.read a = s.enc.ebuf.read a) ∧
      (¬ closesRun b s.enc → t.enc.emark = s.enc.emark) ∧ t.enc.ephase = s.enc.ephase ∧
      t.dec = s.dec ∧ t.params = s.params ∧ t.host.commands = s.host.commands) ∧
    (exec .encFinish s = .next t →
      (∀ a, a ≠ s.enc.emark → a ≠ s.enc.ecur → t.enc.ebuf.read a = s.enc.ebuf.read a) ∧
      t.enc.emark = s.enc.emark ∧ t.enc.ecode = s.enc.ecode ∧
      t.dec = s.dec ∧ t.params = s.params ∧ t.host.commands = s.host.commands)

/-- The committed prefix: while a frame is under construction, the cells below `ECUR` other than the
reserved one are final; no later `ENC_BYTE` or `ENC_FINISH` of the frame writes them, and at the end the
whole frame holds bytes there (41_encoder.md R116, an inference the
spec marks as its own: from R102, R103 and R106). -/
def Obligations.CommittedPrefixIsFinal : Prop :=
  ∀ (s t : State) (bs : List Byte), s.Inv → s.enc.ephase = .active →
    runOps (encChunkOps bs) s = .next t →
    (∀ a, a < s.enc.ecur → a ≠ s.enc.emark →
      (s.enc.ebuf.read a).isSome ∧ t.enc.ebuf.read a = s.enc.ebuf.read a) ∧
    (∀ u, exec .encFinish t = .next u →
      ∀ a, a < s.enc.ecur → a ≠ s.enc.emark → u.enc.ebuf.read a = s.enc.ebuf.read a)

/-- When `ENC_FINISH` returns `(Done, L)`, every cell 0 to `L - 1` holds a byte (41_encoder.md R117,
an inference the spec marks as its own: from R103 and R106). -/
def Obligations.FinishedFrameHasNoGap : Prop :=
  ∀ s t : State, s.Inv → exec .encFinish s = .next t →
    ∃ len, t.host.responses = s.host.responses ++ [⟨.done, len⟩] ∧
      ∀ a, a < len → (t.enc.ebuf.read a).isSome

/-- A finished frame holds 0x00 in its last cell and in no other (41_encoder.md R114, an inference the
spec marks as its own: from R102, R103 and R106). -/
def Obligations.FinishedFrameHasNoInnerZero : Prop :=
  ∀ s t : State, s.Inv → exec .encFinish s = .next t →
    ∃ len, t.host.responses = s.host.responses ++ [⟨.done, len⟩] ∧
      ∀ a, a < len → (t.enc.ebuf.read a = some 0x00#8 ↔ a + 1 = len)

/-! ## The decoder -/

/-- `DEC_INIT cap` completes in every phase for a capacity the buffer has and faults for a larger one; no
DBUF cell changes (43_decoder.md R151; the precondition is the spec's own decision, 92_eei_decisions.md D17). -/
def Obligations.DecInitBindsCapacity : Prop :=
  ∀ (cap : Nat) (s : State),
    (cap ≤ s.params.dbufSize →
      ∃ t, exec (.decInit cap) s = .next t ∧
        t.dec.dcap = cap ∧ t.dec.dw = 0 ∧ t.dec.drem = 0#8 ∧ t.dec.dmand = true ∧
        t.dec.dphase = .ready ∧ t.dec.dbuf = s.dec.dbuf ∧
        t.enc = s.enc ∧ t.params = s.params ∧ t.host.commands = s.host.commands ∧
        t.host.responses = s.host.responses ++ [⟨.done, 0⟩]) ∧
    (s.params.dbufSize < cap → exec (.decInit cap) s = .fault .decCapTooLarge)

/-- `DEC_BYTE` before the first `DEC_INIT` faults (43_decoder.md R163: the spec's own decision,
92_eei_decisions.md D8). -/
def Obligations.DecByteNotReadyFaults : Prop :=
  ∀ (b : Byte) (s : State), s.dec.dphase = .uninit → exec (.decByte b) s = .fault .decNotReady

/-- On an initialised decoder `DEC_BYTE` completes with exactly one status, the one of the table of
43_decoder.md R162, and with the effect that table names. -/
def Obligations.DecByteStatusTable : Prop :=
  ∀ (b : Byte) (s : State), s.dec.dphase = .ready →
    ∃ t r, exec (.decByte b) s = .next t ∧ t.host.responses = s.host.responses ++ [r] ∧
      r.status ≠ .incompleteFrame ∧
      (s.dec.drem ≠ 0#8 → b = 0x00#8 → r = ⟨.malformedFrame, 0⟩ ∧ t.dec.initial) ∧
      (s.dec.drem ≠ 0#8 → b ≠ 0x00#8 → s.dec.dw = s.dec.dcap →
        r = ⟨.overflow, 0⟩ ∧ t.dec.initial) ∧
      (s.dec.drem ≠ 0#8 → b ≠ 0x00#8 → s.dec.dw ≠ s.dec.dcap →
        r = ⟨.processing, 0⟩ ∧ t.dec.dbuf = s.dec.dbuf.write s.dec.dw b) ∧
      (s.dec.drem = 0#8 → b = 0x00#8 → r = ⟨.frameAvailable, s.dec.dw⟩ ∧ t.dec.initial) ∧
      (s.dec.drem = 0#8 → b ≠ 0x00#8 → s.dec.dmand = false → s.dec.dw = s.dec.dcap →
        r = ⟨.overflow, 0⟩ ∧ t.dec.initial) ∧
      (s.dec.drem = 0#8 → b ≠ 0x00#8 → s.dec.dmand = false → s.dec.dw ≠ s.dec.dcap →
        r = ⟨.processing, 0⟩ ∧ t.dec.dbuf = s.dec.dbuf.write s.dec.dw 0x00#8 ∧
          t.dec.drem = b - 1#8 ∧ (t.dec.dmand = true ↔ b = 0xFF#8)) ∧
      (s.dec.drem = 0#8 → b ≠ 0x00#8 → s.dec.dmand = true →
        r = ⟨.processing, 0⟩ ∧ t.dec.dbuf = s.dec.dbuf ∧ t.dec.drem = b - 1#8 ∧
          (t.dec.dmand = true ↔ b = 0xFF#8))

/-- A non-zero byte in a run with room left is a literal: written at `DW`, the cursor and the run counter
move by one, `DMAND` stays (43_decoder.md R158). -/
def Obligations.DecByteWritesLiteral : Prop :=
  ∀ (b : Byte) (s : State), s.dec.dphase = .ready → s.dec.drem ≠ 0#8 → b ≠ 0x00#8 →
    s.dec.dw ≠ s.dec.dcap →
    ∃ t, exec (.decByte b) s = .next t ∧
      t.dec.dbuf.read s.dec.dw = some b ∧
      (∀ a, a ≠ s.dec.dw → t.dec.dbuf.read a = s.dec.dbuf.read a) ∧
      t.dec.dw = s.dec.dw + 1 ∧ t.dec.drem.toNat = s.dec.drem.toNat - 1 ∧
      t.dec.dmand = s.dec.dmand ∧ t.dec.dcap = s.dec.dcap ∧ t.dec.dphase = .ready ∧
      t.host.responses = s.host.responses ++ [⟨.processing, 0⟩]

/-- A 0x00 in a run is `MalformedFrame`, whether or not the buffer is full: nothing is written and the
decoder resets (43_decoder.md R159, 60_exceptions.md R205). -/
def Obligations.DecByteMalformed : Prop :=
  ∀ s : State, s.dec.dphase = .ready → s.dec.drem ≠ 0#8 →
    ∃ t, exec (.decByte 0x00#8) s = .next t ∧ t.dec.dbuf = s.dec.dbuf ∧ t.dec.initial ∧
      t.dec.dcap = s.dec.dcap ∧ t.dec.dphase = .ready ∧
      t.host.responses = s.host.responses ++ [⟨.malformedFrame, 0⟩]

/-- `Overflow`: a literal or an owed delimiter must be written and `DW = DCAP`; nothing is written, the
decoder resets (43_decoder.md R156, R157; that the test is made only when a write is
needed is the spec's own decision D15). -/
def Obligations.DecByteOverflow : Prop :=
  ∀ (b : Byte) (s : State), s.dec.dphase = .ready → b ≠ 0x00#8 → s.dec.dw = s.dec.dcap →
    (s.dec.drem ≠ 0#8 ∨ s.dec.dmand = false) →
    ∃ t, exec (.decByte b) s = .next t ∧ t.dec.dbuf = s.dec.dbuf ∧ t.dec.initial ∧
      t.dec.dcap = s.dec.dcap ∧ t.dec.dphase = .ready ∧
      t.host.responses = s.host.responses ++ [⟨.overflow, 0⟩]

/-- A 0x00 where a marker is expected is the terminator: the response carries `DW` as it was, no delimiter
is written even if one is owed, DBUF keeps the payload, the decoder resets (43_decoder.md R154). -/
def Obligations.DecByteTerminator : Prop :=
  ∀ s : State, s.dec.dphase = .ready → s.dec.drem = 0#8 →
    ∃ t, exec (.decByte 0x00#8) s = .next t ∧ t.dec.dbuf = s.dec.dbuf ∧ t.dec.initial ∧
      t.dec.dcap = s.dec.dcap ∧ t.dec.dphase = .ready ∧
      t.host.responses = s.host.responses ++ [⟨.frameAvailable, s.dec.dw⟩]

/-- A marker before which no delimiter is owed loads the run counter and the flag and writes nothing
(43_decoder.md R153). -/
def Obligations.DecByteLoadsMarker : Prop :=
  ∀ (m : Byte) (s : State), s.dec.dphase = .ready → s.dec.drem = 0#8 → m ≠ 0x00#8 →
    s.dec.dmand = true →
    ∃ t, exec (.decByte m) s = .next t ∧ t.dec.dbuf = s.dec.dbuf ∧ t.dec.dw = s.dec.dw ∧
      t.dec.drem.toNat = m.toNat - 1 ∧ (t.dec.dmand = true ↔ m = 0xFF#8) ∧
      t.dec.dcap = s.dec.dcap ∧ t.dec.dphase = .ready ∧
      t.host.responses = s.host.responses ++ [⟨.processing, 0⟩]

/-- A marker before which a delimiter is owed writes 0x00 first, then loads the run counter and the flag
(43_decoder.md R153, R155). -/
def Obligations.DecByteWritesOwedDelimiter : Prop :=
  ∀ (m : Byte) (s : State), s.dec.dphase = .ready → s.dec.drem = 0#8 → m ≠ 0x00#8 →
    s.dec.dmand = false → s.dec.dw ≠ s.dec.dcap →
    ∃ t, exec (.decByte m) s = .next t ∧
      t.dec.dbuf.read s.dec.dw = some 0x00#8 ∧
      (∀ a, a ≠ s.dec.dw → t.dec.dbuf.read a = s.dec.dbuf.read a) ∧
      t.dec.dw = s.dec.dw + 1 ∧
      t.dec.drem.toNat = m.toNat - 1 ∧ (t.dec.dmand = true ↔ m = 0xFF#8) ∧
      t.dec.dcap = s.dec.dcap ∧ t.dec.dphase = .ready ∧
      t.host.responses = s.host.responses ++ [⟨.processing, 0⟩]

/-- The frame of the decoder operations (20_memory.md R60, 43_decoder.md R181; R60 is the spec's own decision
D10): `DEC_INIT` changes no cell; `DEC_BYTE` changes at most the cell at `DW` and keeps `DCAP` and `DPHASE`;
neither touches the encoder, the parameters or the host's list. -/
def Obligations.DecoderOperationsFrame : Prop :=
  ∀ (s t : State),
    (∀ cap, exec (.decInit cap) s = .next t →
      (∀ a, t.dec.dbuf.read a = s.dec.dbuf.read a) ∧
      t.enc = s.enc ∧ t.params = s.params ∧ t.host.commands = s.host.commands) ∧
    (∀ b, exec (.decByte b) s = .next t →
      (∀ a, a ≠ s.dec.dw → t.dec.dbuf.read a = s.dec.dbuf.read a) ∧
      t.dec.dcap = s.dec.dcap ∧ t.dec.dphase = s.dec.dphase ∧
      t.enc = s.enc ∧ t.params = s.params ∧ t.host.commands = s.host.commands)

/-- The decoder never writes a cell of index `>= DCAP` (43_decoder.md R168). -/
def Obligations.DecoderNeverWritesPastCapacity : Prop :=
  ∀ (b : Byte) (s t : State), s.Inv → exec (.decByte b) s = .next t →
    t.dec.dw ≤ t.dec.dcap ∧
    ∀ a, s.dec.dcap ≤ a → t.dec.dbuf.read a = s.dec.dbuf.read a

/-- Every reset of the decoder leaves the state `DEC_INIT DCAP` leaves (43_decoder.md R164, 60_exceptions.md
R208). -/
def Obligations.ResetEqualsDecInit : Prop :=
  ∀ (b : Byte) (s t : State), s.Inv → exec (.decByte b) s = .next t →
    (responseOf t).status ≠ .processing →
    ∃ u, exec (.decInit s.dec.dcap) s = .next u ∧ u.dec = t.dec

/-- After any `DEC_BYTE 0x00` the decoder is in its initial state, whatever happened before (43_decoder.md
R174, an inference the spec marks as its own: from R152). -/
def Obligations.ZeroByteSynchronises : Prop :=
  ∀ s : State, s.dec.dphase = .ready →
    ∃ t, exec (.decByte 0x00#8) s = .next t ∧ t.dec.initial ∧ t.dec.dcap = s.dec.dcap ∧
      t.dec.dphase = .ready ∧
      (s.dec.drem = 0#8 → (responseOf t).status = .frameAvailable) ∧
      (s.dec.drem ≠ 0#8 → (responseOf t).status = .malformedFrame)

/-! ## The whole machine -/

/-- Every step from a state that meets the invariant gives one that meets it: the cursors and counters in
their ranges, `ECUR = EMARK + ECODE`, the marker chain, no gap, `DW <= DCAP <= DBUF_SIZE`, both buffers in
their canonical form inside their ranges (10_state.md R28, R29, R37, R42; R28, R37 and R42 are
inferences the spec marks as its own, and the canonical form is the model's, entry 6). -/
def Obligations.StepKeepsInvariant : Prop :=
  ∀ s t : State, s.Inv → step s = .next t → t.Inv

/-- The power-on state of a block whose parameters meet 00_scope.md R8 meets the invariant; the machine of
`State.reset` is one (its register values and parameters are the model's choice, entries 4 and 5). -/
def Obligations.PowerOnMeetsInvariant : Prop :=
  (∀ p : Params, p.WF → (State.powerOn p).Inv) ∧ State.reset.Inv

/-- At power-on both phases are `Uninit` and no cell holds a value; the only operations with a meaning are
`ENC_INIT` and `DEC_INIT` (10_state.md R40, 70_reset_and_hazards.md R231: the spec's
own decision, 92_eei_decisions.md D9). -/
def Obligations.PowerOnOperations : Prop :=
  ∀ p : Params,
    (State.powerOn p).enc.ephase = .uninit ∧ (State.powerOn p).dec.dphase = .uninit ∧
    (∀ a, (State.powerOn p).enc.ebuf.read a = none ∧ (State.powerOn p).dec.dbuf.read a = none) ∧
    (∀ i, (∃ t, exec i (State.powerOn p) = .next t) ↔
      i = .encInit ∨ ∃ cap, i = .decInit cap ∧ cap ≤ p.dbufSize)

/-- Before the initialisation of an instance the values its registers hold never matter: an operation
faults alike, and completes alike with those values still there or replaced (10_state.md R40, 70 R231;
the spec's own decision D9; the register values there are the model's, entry 5). -/
def Obligations.PowerOnRegistersNeverMatter : Prop :=
  ∀ (i : Instr) (s : State),
    (s.enc.ephase = .uninit → ∀ emark ecur ecode,
      (∀ f, exec i (s.withEncRegs emark ecur ecode) = .fault f ↔ exec i s = .fault f) ∧
      (∀ t, exec i s = .next t →
        exec i (s.withEncRegs emark ecur ecode) = .next t ∨
        (t.enc.ephase = .uninit ∧
          exec i (s.withEncRegs emark ecur ecode) = .next (t.withEncRegs emark ecur ecode)))) ∧
    (s.dec.dphase = .uninit → ∀ dcap dw drem dmand,
      (∀ f, exec i (s.withDecRegs dcap dw drem dmand) = .fault f ↔ exec i s = .fault f) ∧
      (∀ t, exec i s = .next t →
        exec i (s.withDecRegs dcap dw drem dmand) = .next t ∨
        (t.dec.dphase = .uninit ∧
          exec i (s.withDecRegs dcap dw drem dmand) = .next (t.withDecRegs dcap dw drem dmand))))

/-- No operation of one instance reads or writes the other's state (00_scope.md R2): its effect on its own
instance is the same whatever the other holds, and the other is left as it was. -/
def Obligations.InstancesShareNothing : Prop :=
  ∀ (i : Instr) (s t : State), exec i s = .next t →
    (isEncoderOp i = true → t.dec = s.dec ∧
      ∀ d, ∃ u, exec i { s with dec := d } = .next u ∧ u.enc = t.enc ∧ u.dec = d ∧
        u.host.responses = t.host.responses) ∧
    (isEncoderOp i = false → t.enc = s.enc ∧
      ∀ e, ∃ u, exec i { s with enc := e } = .next u ∧ u.dec = t.dec ∧ u.enc = e ∧
        u.host.responses = t.host.responses)

/-- An encoder operation and a decoder operation commute: either order completes with the same two
instances, each operation giving the same response (00_scope.md R9). -/
def Obligations.OperationsCommute : Prop :=
  ∀ (i j : Instr) (s t u : State), isEncoderOp i = true → isEncoderOp j = false →
    exec i s = .next t → exec j t = .next u →
    ∃ t' u' ri rj, exec j s = .next t' ∧ exec i t' = .next u' ∧
      u'.enc = u.enc ∧ u'.dec = u.dec ∧ u'.params = u.params ∧
      u.host.responses = s.host.responses ++ [ri, rj] ∧
      u'.host.responses = s.host.responses ++ [rj, ri]

/-- Every operation that does not fault returns exactly one response, with a status that operation can
return and, from a state that meets the invariant, a value that fits the response word; the parameters
and the host's list stay (30_encoding.md R84, 60_exceptions.md R201: one response per
operation is the spec's own decision D3; the list it is added to is the model's, entry 2). -/
def Obligations.OneResponsePerOperation : Prop :=
  ∀ (i : Instr) (s t : State), exec i s = .next t →
    ∃ r, t.host.responses = s.host.responses ++ [r] ∧ responseOf t = r ∧
      returnable i r.status = true ∧ (s.Inv → r.wf = true) ∧
      t.params = s.params ∧ t.host.commands = s.host.commands

/-- `DCAP` is changed by no operation but `DEC_INIT`, the automatic reset included (10_state.md R30). -/
def Obligations.OnlyDecInitChangesCapacity : Prop :=
  ∀ (i : Instr) (s t : State), exec i s = .next t → t.dec.dcap ≠ s.dec.dcap →
    ∃ cap, i = .decInit cap ∧ t.dec.dcap = cap

/-- Nothing in a buffer can change what the block does next: with other contents an operation faults alike
and completes with the same registers and the same response (20_memory.md R54, R63: the spec's own
decisions D24 and D6). -/
def Obligations.BuffersNeverInfluence : Prop :=
  ∀ (i : Instr) (s : State) (ebuf dbuf : Memory),
    (∀ f, exec i (s.withBuffers ebuf dbuf) = .fault f ↔ exec i s = .fault f) ∧
    (∀ t, exec i s = .next t →
      ∃ ebuf' dbuf', exec i (s.withBuffers ebuf dbuf) = .next (t.withBuffers ebuf' dbuf'))

/-- In a state that meets the invariant every cursor fits `IDXW` bits with room for one more, and the two
counters never reach 255 (10_state.md R42, an inference the spec marks as its own; the width 32 is its
decision D4, entry 7). -/
def Obligations.RegistersFitTheirWidths : Prop :=
  ∀ s : State, s.Inv →
    s.enc.emark < 2 ^ Config.idxw ∧ s.enc.ecur < 2 ^ Config.idxw ∧
    s.dec.dcap < 2 ^ Config.idxw ∧ s.dec.dw < 2 ^ Config.idxw ∧ s.dec.drem.toNat < 255 ∧
    (s.enc.ephase = .active → s.enc.ecode.toNat < 255 ∧ s.enc.ecur = s.enc.emark + s.enc.ecode.toNat)

/-- A host read gives the byte of a cell that holds one and is refused for a cell that holds none
(20_memory.md R54, the spec's own decision D24; the refusal outside the buffer is the model's, entry 11). -/
def Obligations.HostReadGivesTheCell : Prop :=
  ∀ (sp : Space) (a : Nat) (s : State),
    (∀ v, a < spaceSize sp s → (spaceCells sp s).read a = some v → hostRead sp a s = .next v) ∧
    (a < spaceSize sp s → (spaceCells sp s).read a = none →
      hostRead sp a s = .refused .cellWithoutValue) ∧
    (spaceSize sp s ≤ a → hostRead sp a s = .refused .noSuchCell)

/-! ## The transform -/

/-- With enough capacity `ENC_FRAME b` completes from any state, its value is `EncLen(b)`, and EBUF holds
`Stuff(b)` from cell 0 (41_encoder.md R105, R112; R112 is an inference the spec marks as its own). -/
def Obligations.EncFrameBuildsStuff : Prop :=
  ∀ (b : List Byte) (s : State), encLen b ≤ s.params.ecap →
    ∃ t, encFrame b s = .next (t, ⟨.done, encLen b⟩) ∧ t.enc.ebuf.holds (stuff b) ∧
      t.enc.ephase = .final

/-- Encoding `b` completes if and only if `ECAP >= EncLen(b)`; otherwise it faults `EncBufferOverrun`
(41_encoder.md R110, R111: the spec's own decision D20). -/
def Obligations.CapacityIsExactlyEncLen : Prop :=
  ∀ (b : List Byte) (s : State),
    ((∃ r, encFrame b s = .next r) ↔ encLen b ≤ s.params.ecap) ∧
    (s.params.ecap < encLen b → encFrame b s = .fault .encBufferOverrun)

/-- `EncLen(b)` is the length of `Stuff(b)`, between `len(b) + 2` and `len(b) + floor(len(b)/254) + 2`
(41_encoder.md R113, an inference the spec marks as its own: from R112). -/
def Obligations.EncLenIsTheFrameLength : Prop :=
  ∀ b : List Byte, encLen b = (stuff b).length ∧ b.length + 2 ≤ encLen b ∧
    encLen b ≤ b.length + b.length / 254 + 2

/-- `Stuff(b)` is a frame of the grammar: runs of at most 254 non-zero literals, a full run never before
the terminator, and the runs stand for `b` (30_encoding.md R71, R74). -/
def Obligations.StuffIsCanonical : Prop :=
  ∀ b : List Byte, ∃ runs, legalRuns runs = true ∧ lastRunNotFull runs = true ∧
    stuff b = frameBytes runs ∧ payloadOfRuns runs = b

/-- The reference decoding of a frame of legal runs is what the runs stand for (30_encoding.md R72, R74,
R75; Unstuff as an Option is the model's, entry 22). -/
def Obligations.UnstuffOfRuns : Prop :=
  ∀ runs : List (List Byte), legalRuns runs = true →
    unstuff (frameBytes runs) = some (payloadOfRuns runs)

/-- The reference decoding undoes the reference encoding (30_encoding.md R75, 41_encoder.md R112;
Unstuff as an Option is the model's, entry 22). -/
def Obligations.UnstuffOfStuff : Prop :=
  ∀ b : List Byte, unstuff (stuff b) = some b

/-- On a byte sequence whose only 0x00 is its last byte, a decoder in its initial state agrees with
`Unstuff`: the payload where it is defined and fits, `MalformedFrame` at the terminator where it is
undefined and no overflow comes first (43_decoder.md R166, an inference the spec marks as its
own: from R152 and R75). -/
def Obligations.DecoderAgreesWithUnstuff : Prop :=
  ∀ (f : List Byte) (s : State), frameShaped f = true → s.dec.dphase = .ready → s.dec.initial →
    (∀ b, unstuff f = some b → b.length ≤ s.dec.dcap →
      ∃ t, decFeed f s = .next (t, ⟨.frameAvailable, b.length, f.length⟩) ∧ t.dec.dbuf.holds b) ∧
    (unstuff f = none → f.length ≤ s.dec.dcap →
      ∃ t, decFeed f s = .next (t, ⟨.malformedFrame, 0, f.length⟩))

/-- Round trip: a decoder in its initial state with `DCAP >= len(b)`, fed `Stuff(b)`, ends in
`(FrameAvailable, len(b))` with DBUF starting with `b` (43_decoder.md R167). -/
def Obligations.RoundTrip : Prop :=
  ∀ (b : List Byte) (s : State), s.dec.dphase = .ready → s.dec.initial → b.length ≤ s.dec.dcap →
    ∃ t, decFeed (stuff b) s = .next (t, ⟨.frameAvailable, b.length, (stuff b).length⟩) ∧
      t.dec.dbuf.holds b

/-- A payload one byte or more longer than the capacity overflows, with the part that fits in DBUF, and no
cell at or past the capacity is written (43_decoder.md R172, an inference the spec marks as its own: from R156
and R157). -/
def Obligations.OverflowKeepsWhatFits : Prop :=
  ∀ (b : List Byte) (s : State), s.dec.dphase = .ready → s.dec.initial → s.dec.dcap < b.length →
    ∃ t k, decFeed (stuff b) s = .next (t, ⟨.overflow, 0, k⟩) ∧ k < (stuff b).length ∧
      t.dec.dbuf.holds (b.take s.dec.dcap) ∧
      ∀ a, s.dec.dcap ≤ a → t.dec.dbuf.read a = s.dec.dbuf.read a

/-- How a payload is cut into chunks does not matter (41_encoder.md R104, R115). -/
def Obligations.ChunkBoundariesDoNotMatter : Prop :=
  ∀ (chunks : List (List Byte)) (s : State),
    runOps (chunks.flatMap encChunkOps) s = runOps (encChunkOps chunks.flatten) s ∧
    ∀ a b, encChunk (a ++ b) s = onNext (encChunk a s) fun r => encChunk b r.1

/-- `DEC_FEED` continues where an exhausted buffer left off and stops at the first frame or error, leaving
the rest unconsumed (43_decoder.md R160: the spec's own decision D18). -/
def Obligations.DecFeedContinues : Prop :=
  ∀ (a b : List Byte) (s t : State) (r : FeedResult), decFeed a s = .next (t, r) →
    (r.status = .incompleteFrame → r.value = 0 ∧ r.consumed = a.length ∧
      decFeed (a ++ b) s = onNext (decFeed b t) fun q =>
        .next (q.1, { q.2 with consumed := a.length + q.2.consumed })) ∧
    (r.status ≠ .incompleteFrame → r.status ≠ .processing ∧ r.consumed ≤ a.length ∧
      decFeed (a ++ b) s = .next (t, r))

/-- A capacity of `MaxDecodeLen(e)` is enough for any frame of `e` bytes (43_decoder.md R169, an
inference the spec marks as its own: from R152). -/
def Obligations.MaxDecodeLenSuffices : Prop :=
  ∀ (f : List Byte) (s : State), frameShaped f = true → s.dec.dphase = .ready → s.dec.initial →
    maxDecodeLen f.length ≤ s.dec.dcap →
    ∃ t r, decFeed f s = .next (t, r) ∧
      (r.status = .frameAvailable ∨ r.status = .malformedFrame) ∧ r.consumed = f.length

/-! ## The pure functions beside the core -/

/-- `MaxEncodeLen` bounds the frame of every payload but one family, where it is one byte short
(44_capacity_functions.md R193, an inference the spec marks as its own: from 41_encoder.md R113). -/
def Obligations.MaxEncodeLenFallsShortOnce : Prop :=
  ∀ b : List Byte,
    (¬ (1 ≤ b.length ∧ b.length % 254 = 0 ∧ ∀ x ∈ b, x ≠ 0x00#8) →
      encLen b ≤ maxEncodeLen b.length) ∧
    (1 ≤ b.length → b.length % 254 = 0 → (∀ x ∈ b, x ≠ 0x00#8) →
      encLen b = maxEncodeLen b.length + 1)

/-- `SafeEncodeLen` bounds the frame of every payload, is met by the all-non-zero one, differs from
`MaxEncodeLen` exactly on positive multiples of 254 and is monotone (44_capacity_functions.md R194); the
all-zero payload and the decoder's bound (R195, R196). `SafeEncodeLen`
is the spec's own decision D20, and R195, R196 are inferences the spec marks as its own. -/
def Obligations.SafeEncodeLenIsLeast : Prop :=
  (∀ b : List Byte, encLen b ≤ safeEncodeLen b.length ∧
    ((∀ x ∈ b, x ≠ 0x00#8) → encLen b = safeEncodeLen b.length) ∧
    b.length ≤ maxDecodeLen (encLen b)) ∧
  (∀ d : Nat, ((¬ 254 ∣ d ∨ d = 0) → safeEncodeLen d = maxEncodeLen d) ∧
    (1 ≤ d → 254 ∣ d → safeEncodeLen d = maxEncodeLen d + 1)) ∧
  (∀ d e : Nat, d ≤ e → safeEncodeLen d ≤ safeEncodeLen e) ∧
  (∀ d : Nat, encLen (List.replicate d 0x00#8) = d + 2)

/-- Updating a CRC byte by byte and applying the final mask when it is read gives the whole-block checksum,
however the bytes are cut (42_crc_engine.md R135). -/
def Obligations.CrcIncrementalEqualsBlock : Prop :=
  ∀ (v : CrcVariant) (a b : List Byte),
    crcRead v (crcFeed v (crcFeed v v.init a) b) = crcBlock v (a ++ b)
end

