-- ==== Sys2Proof/Laws/Chain.lean ====
section
/-! SUPPORT. The chain of closed markers of 10_state.md R29: it depends only on the cells in front of its
end, and a new closed marker extends it. -/

namespace Sys2Proof.Machine

theorem MarkerChain.le {m : Memory} {i j : Nat} (h : MarkerChain m i j) : i ≤ j := by
  induction h with
  | stop => exact le_refl _
  | jump i j v h pos rest ih => omega

/-- Other contents at or past the end of a chain leave it a chain. -/
theorem MarkerChain.congr {m n : Memory} {i j : Nat} (h : MarkerChain m i j)
    (hr : ∀ a, a < j → n.read a = m.read a) : MarkerChain n i j := by
  induction h with
  | stop => exact .stop _
  | jump i j v h pos rest ih =>
    have := rest.le
    exact .jump _ _ v (by rw [hr _ (by omega)]; exact h) pos (ih hr)

/-- A marker written at the end of a chain makes it end where the marker points. -/
theorem MarkerChain.snoc {m : Memory} {i j : Nat} {v : Byte} (h : MarkerChain m i j)
    (hr : m.read j = some v) (pos : 1 ≤ v.toNat) : MarkerChain m i (j + v.toNat) := by
  induction h with
  | stop => exact .jump _ _ v hr pos (.stop _)
  | jump i j v h pos' rest ih => exact .jump _ _ _ h pos' (ih hr)

end Sys2Proof.Machine
end

