-- ==== Sys2Proof/Laws/Memory.lean ====
section
/-! SUPPORT. The laws of a buffer's cells: what reading gives after a write or a reservation
(20_memory.md R51, R53), and that both keep the canonical form and the range. -/

namespace Sys2Proof.Machine

@[simp] theorem Memory.read_nil (i : Nat) : Memory.read [] i = none := rfl

@[simp] theorem Memory.read_cons (a : Nat) (v : Byte) (m : Memory) (i : Nat) :
    Memory.read ((a, v) :: m) i = if a = i then some v else Memory.read m i := rfl

@[simp] theorem Memory.read_write (m : Memory) (i : Nat) (v : Byte) (j : Nat) :
    (m.write i v).read j = if j = i then some v else m.read j := by
  induction m with
  | nil => simp only [Memory.write, Memory.read_cons, Memory.read_nil, eq_comm]
  | cons c m ih =>
    obtain ⟨a, x⟩ := c
    simp only [Memory.write]
    split_ifs with h₁ h₂ h₃ h₃ <;> simp only [Memory.read_cons, ih] <;> split_ifs <;> first | rfl | omega

@[simp] theorem Memory.read_erase (m : Memory) (i j : Nat) :
    (m.erase i).read j = if j = i then none else m.read j := by
  induction m with
  | nil => simp [Memory.erase]
  | cons c m ih =>
    obtain ⟨a, x⟩ := c
    simp only [Memory.erase] at ih
    by_cases h : a = i
    · subst h
      simp only [Memory.erase, List.filter_cons, bne_self_eq_false, Bool.false_eq_true, if_false, ih,
        Memory.read_cons]
      split_ifs <;> first | rfl | omega
    · simp only [Memory.erase, List.filter_cons, bne_iff_ne, ne_eq, h, not_false_eq_true, if_true,
        Memory.read_cons, ih]
      split_ifs <;> first | rfl | omega

/-- Every cell of a written buffer is the written one or was there before. -/
theorem Memory.mem_write (m : Memory) (i : Nat) (v : Byte) (c : Host.Cell) (h : c ∈ m.write i v) :
    c = (i, v) ∨ c ∈ m := by
  induction m with
  | nil => simpa [Memory.write] using h
  | cons d m ih =>
    simp only [Memory.write] at h
    split_ifs at h <;> simp only [List.mem_cons] at h ⊢ <;> tauto

/-- A write keeps the canonical form. -/
theorem Memory.wf_write (m : Memory) (i : Nat) (v : Byte) (h : m.wf) : (m.write i v).wf := by
  induction m with
  | nil => exact List.pairwise_singleton _ _
  | cons c m ih =>
    obtain ⟨a, x⟩ := c
    obtain ⟨hlt, hm⟩ := List.pairwise_cons.1 h
    simp only [Memory.write]
    split_ifs with h₁ h₂
    · exact List.pairwise_cons.2 ⟨fun d hd => by
        rcases List.mem_cons.1 hd with rfl | hd
        · exact h₁
        · exact lt_trans h₁ (hlt d hd), h⟩
    · subst h₂
      exact List.pairwise_cons.2 ⟨hlt, hm⟩
    · refine List.pairwise_cons.2 ⟨fun d hd => ?_, ih hm⟩
      rcases Memory.mem_write m i v d hd with rfl | hd
      · show a < i
        omega
      · exact hlt d hd

/-- A reservation keeps the canonical form. -/
theorem Memory.wf_erase (m : Memory) (i : Nat) (h : m.wf) : (m.erase i).wf :=
  h.sublist List.filter_sublist

/-- A write inside the range keeps the buffer inside it. -/
theorem Memory.below_write (m : Memory) (i : Nat) (v : Byte) (n : Nat) (hi : i < n)
    (h : m.below n) : (m.write i v).below n := fun c hc => by
  rcases Memory.mem_write m i v c hc with rfl | hc
  · exact hi
  · exact h c hc

/-- A reservation keeps the buffer inside its range. -/
theorem Memory.below_erase (m : Memory) (i n : Nat) (h : m.below n) : (m.erase i).below n :=
  fun c hc => h c (List.mem_of_mem_filter hc)

/-- A cell at or past the range of a buffer holds no value. -/
theorem Memory.read_of_below (m : Memory) (n i : Nat) (h : m.below n) (hi : n ≤ i) :
    m.read i = none := by
  induction m with
  | nil => rfl
  | cons c m ih =>
    have ha : c.1 < n := h c (List.mem_cons_self ..)
    rw [show c = (c.1, c.2) from rfl, Memory.read_cons, if_neg (by omega)]
    exact ih fun d hd => h d (List.mem_cons_of_mem _ hd)

/-- Two canonical buffers with the same cells are the same data. -/
theorem Memory.ext_of_wf (m n : Memory) (hm : m.wf) (hn : n.wf) (h : ∀ i, m.read i = n.read i) :
    m = n := by
  have low : ∀ (k : Memory) (a : Nat), (∀ c ∈ k, a < c.1) → k.read a = none := by
    intro k a
    induction k with
    | nil => intro; rfl
    | cons c k ih =>
      intro hk
      have := hk c (List.mem_cons_self ..)
      rw [show c = (c.1, c.2) from rfl, Memory.read_cons, if_neg (by omega)]
      exact ih fun d hd => hk d (List.mem_cons_of_mem _ hd)
  induction m generalizing n with
  | nil =>
    cases n with
    | nil => rfl
    | cons d n =>
      obtain ⟨b, y⟩ := d
      have := h b
      simp at this
  | cons c m ih =>
    obtain ⟨a, x⟩ := c
    obtain ⟨hc, hm'⟩ := List.pairwise_cons.1 hm
    cases n with
    | nil =>
      have := h a
      simp at this
    | cons d n =>
      obtain ⟨b, y⟩ := d
      obtain ⟨hd, hn'⟩ := List.pairwise_cons.1 hn
      have hab : a = b := by
        rcases lt_trichotomy a b with hlt | heq | hgt
        · have h1 := h a
          simp only [Memory.read_cons, if_true] at h1
          rw [if_neg (by omega), low n a fun c hc => by have := hd c hc; dsimp only at this; omega] at h1
          exact absurd h1 (by simp)
        · exact heq
        · have h1 := h b
          simp only [Memory.read_cons, if_true] at h1
          rw [if_neg (by omega), low m b fun c hc' => by have := hc c hc'; dsimp only at this; omega] at h1
          exact absurd h1 (by simp)
      subst hab
      have hxy : x = y := by have := h a; simpa using this
      subst hxy
      rw [ih n hm' hn' fun i => ?_]
      by_cases hi : a = i
      · subst hi
        rw [low m a hc, low n a hd]
      · have := h i
        simpa [hi] using this

end Sys2Proof.Machine
end

