-- ==== Sys2Proof/Laws/State.lean ====
section
/-! SUPPORT. One lemma per field per update of the state and its parts, each true by unfolding, so that
no later proof unfolds a record update. -/

namespace Sys2Proof.Machine

section
variable (s : State) (r : Response) (ws : List CmdWord)

@[simp] theorem State.respond_params : (s.respond r).params = s.params := rfl
@[simp] theorem State.respond_enc : (s.respond r).enc = s.enc := rfl
@[simp] theorem State.respond_dec : (s.respond r).dec = s.dec := rfl
@[simp] theorem State.respond_commands : (s.respond r).host.commands = s.host.commands := rfl
@[simp] theorem State.respond_responses :
    (s.respond r).host.responses = s.host.responses ++ [r] := rfl
@[simp] theorem State.respond_lastResponse : (s.respond r).lastResponse = some r := by
  simp [State.lastResponse]

@[simp] theorem State.withCommands_params : (s.withCommands ws).params = s.params := rfl
@[simp] theorem State.withCommands_enc : (s.withCommands ws).enc = s.enc := rfl
@[simp] theorem State.withCommands_dec : (s.withCommands ws).dec = s.dec := rfl
@[simp] theorem State.withCommands_commands : (s.withCommands ws).host.commands = ws := rfl
@[simp] theorem State.withCommands_responses :
    (s.withCommands ws).host.responses = s.host.responses := rfl

end

section
variable (d : Decoder) (v m : Byte)

@[simp] theorem autoReset_dbuf : (autoReset d).dbuf = d.dbuf := rfl
@[simp] theorem autoReset_dcap : (autoReset d).dcap = d.dcap := rfl
@[simp] theorem autoReset_dw : (autoReset d).dw = 0 := rfl
@[simp] theorem autoReset_drem : (autoReset d).drem = 0#8 := rfl
@[simp] theorem autoReset_dmand : (autoReset d).dmand = true := rfl
@[simp] theorem autoReset_dphase : (autoReset d).dphase = d.dphase := rfl

@[simp] theorem pushDbuf_dbuf : (pushDbuf v d).dbuf = d.dbuf.write d.dw v := rfl
@[simp] theorem pushDbuf_dcap : (pushDbuf v d).dcap = d.dcap := rfl
@[simp] theorem pushDbuf_dw : (pushDbuf v d).dw = d.dw + 1 := rfl
@[simp] theorem pushDbuf_drem : (pushDbuf v d).drem = d.drem := rfl
@[simp] theorem pushDbuf_dmand : (pushDbuf v d).dmand = d.dmand := rfl
@[simp] theorem pushDbuf_dphase : (pushDbuf v d).dphase = d.dphase := rfl

@[simp] theorem loadMarker_dbuf : (loadMarker m d).dbuf = d.dbuf := rfl
@[simp] theorem loadMarker_dcap : (loadMarker m d).dcap = d.dcap := rfl
@[simp] theorem loadMarker_dw : (loadMarker m d).dw = d.dw := rfl
@[simp] theorem loadMarker_drem : (loadMarker m d).drem = m - 1#8 := rfl
@[simp] theorem loadMarker_dmand : (loadMarker m d).dmand = (m == Config.codeFull) := rfl
@[simp] theorem loadMarker_dphase : (loadMarker m d).dphase = d.dphase := rfl

end

section
variable (e : Encoder)

@[simp] theorem reserve_ebuf : (reserve e).ebuf = e.ebuf.erase e.ecur := rfl
@[simp] theorem reserve_emark : (reserve e).emark = e.ecur := rfl
@[simp] theorem reserve_ecur : (reserve e).ecur = e.ecur + 1 := rfl
@[simp] theorem reserve_ecode : (reserve e).ecode = e.ecode := rfl
@[simp] theorem reserve_ephase : (reserve e).ephase = e.ephase := rfl

end

end Sys2Proof.Machine
end

