-- ==== Sys2Proof/Laws/Decoder.lean ====
section
/-! SUPPORT. What `DEC_BYTE` does on an initialised decoder, branch by branch (43_decoder.md R152,
the partition of R162). -/

namespace Sys2Proof.Machine

section
variable (b : Byte) (d : Decoder)

theorem decoderByte_malformed (hr : d.drem ≠ 0#8) :
    decoderByte Config.delim d = (autoReset d, ⟨.malformedFrame, 0⟩) := by
  simp [decoderByte, hr, decodeLiteral, raise]

theorem decoderByte_overflowLiteral (hr : d.drem ≠ 0#8) (hb : b ≠ Config.delim) (hf : d.dw = d.dcap) :
    decoderByte b d = (autoReset d, ⟨.overflow, 0⟩) := by
  simp [decoderByte, hr, decodeLiteral, hb, bufferFull, hf, raise]

theorem decoderByte_literal (hr : d.drem ≠ 0#8) (hb : b ≠ Config.delim) (hf : d.dw ≠ d.dcap) :
    decoderByte b d = ({ pushDbuf b d with drem := d.drem - 1#8 }, ⟨.processing, 0⟩) := by
  simp [decoderByte, hr, decodeLiteral, hb, bufferFull, hf]

theorem decoderByte_terminator (hr : d.drem = 0#8) :
    decoderByte Config.delim d = (autoReset d, ⟨.frameAvailable, d.dw⟩) := by
  simp [decoderByte, hr, decodeMarker, raise]

theorem decoderByte_overflowDelimiter (hr : d.drem = 0#8) (hb : b ≠ Config.delim)
    (ho : d.dmand = false) (hf : d.dw = d.dcap) :
    decoderByte b d = (autoReset d, ⟨.overflow, 0⟩) := by
  simp [decoderByte, hr, decodeMarker, hb, delimiterOwed, ho, bufferFull, hf, raise]

theorem decoderByte_delimiterMarker (hr : d.drem = 0#8) (hb : b ≠ Config.delim)
    (ho : d.dmand = false) (hf : d.dw ≠ d.dcap) :
    decoderByte b d = (loadMarker b (pushDbuf Config.delim d), ⟨.processing, 0⟩) := by
  simp [decoderByte, hr, decodeMarker, hb, delimiterOwed, ho, bufferFull, hf]

theorem decoderByte_marker (hr : d.drem = 0#8) (hb : b ≠ Config.delim) (ho : d.dmand = true) :
    decoderByte b d = (loadMarker b d, ⟨.processing, 0⟩) := by
  simp [decoderByte, hr, decodeMarker, hb, delimiterOwed, ho]

/-- Everything `DEC_BYTE` can do: one of the four resets or one of the three bytes taken
(43_decoder.md R162). -/
theorem decoderByte_cases :
    (∃ st v, decoderByte b d = (autoReset d, ⟨st, v⟩) ∧ st ≠ .processing ∧
      (st = .frameAvailable ∧ v = d.dw ∨ (st = .malformedFrame ∨ st = .overflow) ∧ v = 0)) ∨
    (d.drem ≠ 0#8 ∧ b ≠ Config.delim ∧ d.dw ≠ d.dcap ∧
      decoderByte b d = ({ pushDbuf b d with drem := d.drem - 1#8 }, ⟨.processing, 0⟩)) ∨
    (d.drem = 0#8 ∧ b ≠ Config.delim ∧ d.dmand = false ∧ d.dw ≠ d.dcap ∧
      decoderByte b d = (loadMarker b (pushDbuf Config.delim d), ⟨.processing, 0⟩)) ∨
    (d.drem = 0#8 ∧ b ≠ Config.delim ∧ d.dmand = true ∧
      decoderByte b d = (loadMarker b d, ⟨.processing, 0⟩)) := by
  by_cases hr : d.drem = 0#8 <;> by_cases hb : b = Config.delim
  · subst hb
    exact .inl ⟨_, _, decoderByte_terminator d hr, by simp, by simp⟩
  · by_cases ho : d.dmand = true
    · exact .inr (.inr (.inr ⟨hr, hb, ho, decoderByte_marker b d hr hb ho⟩))
    · simp only [Bool.not_eq_true] at ho
      by_cases hf : d.dw = d.dcap
      · exact .inl ⟨_, _, decoderByte_overflowDelimiter b d hr hb ho hf, by simp, by simp⟩
      · exact .inr (.inr (.inl ⟨hr, hb, ho, hf, decoderByte_delimiterMarker b d hr hb ho hf⟩))
  · subst hb
    exact .inl ⟨_, _, decoderByte_malformed d hr, by simp, by simp⟩
  · by_cases hf : d.dw = d.dcap
    · exact .inl ⟨_, _, decoderByte_overflowLiteral b d hr hb hf, by simp, by simp⟩
    · exact .inr (.inl ⟨hr, hb, hf, decoderByte_literal b d hr hb hf⟩)

end

end Sys2Proof.Machine
end

