-- ==== Sys2Proof/Laws/Encoder.lean ====
section
/-! SUPPORT. What each shared operation of the encoder can do, said once: the result it gives and when
it faults. -/

namespace Sys2Proof.Machine

theorem ebufWrite_ok (ecap : Nat) (m m' : Memory) (i : Nat) (v : Byte) :
    ebufWrite ecap m i v = .ok m' ↔ i < ecap ∧ m' = m.write i v := by
  unfold ebufWrite
  split_ifs with h <;> simp [h, eq_comm]

theorem ebufWrite_error (ecap : Nat) (m : Memory) (i : Nat) (v : Byte) (f : Fault) :
    ebufWrite ecap m i v = .error f ↔ ecap ≤ i ∧ f = .encBufferOverrun := by
  unfold ebufWrite
  split_ifs with h <;> simp [eq_comm] <;> omega

theorem pushEbuf_ok (ecap : Nat) (v : Byte) (e e' : Encoder) :
    pushEbuf ecap v e = .ok e' ↔
      e.ecur < ecap ∧ e' = { e with ebuf := e.ebuf.write e.ecur v, ecur := e.ecur + 1 } := by
  unfold pushEbuf
  split <;> rename_i h
  · simp [((ebufWrite_error ..).1 h).1]
  · obtain ⟨h₁, rfl⟩ := (ebufWrite_ok ..).1 h
    simp [h₁, eq_comm]

theorem pushEbuf_error (ecap : Nat) (v : Byte) (e : Encoder) (f : Fault) :
    pushEbuf ecap v e = .error f ↔ ecap ≤ e.ecur ∧ f = .encBufferOverrun := by
  unfold pushEbuf
  split <;> rename_i h
  · obtain ⟨h₁, rfl⟩ := (ebufWrite_error ..).1 h
    simp [h₁, eq_comm]
  · simp [((ebufWrite_ok ..).1 h).1]

theorem backPatch_ok (ecap : Nat) (e e' : Encoder) :
    backPatch ecap e = .ok e' ↔
      e.emark < ecap ∧ e' = { e with ebuf := e.ebuf.write e.emark e.ecode } := by
  unfold backPatch
  split <;> rename_i h
  · simp [((ebufWrite_error ..).1 h).1]
  · obtain ⟨h₁, rfl⟩ := (ebufWrite_ok ..).1 h
    simp [h₁, eq_comm]

theorem backPatch_error (ecap : Nat) (e : Encoder) (f : Fault) :
    backPatch ecap e = .error f ↔ ecap ≤ e.emark ∧ f = .encBufferOverrun := by
  unfold backPatch
  split <;> rename_i h
  · obtain ⟨h₁, rfl⟩ := (ebufWrite_error ..).1 h
    simp [h₁, eq_comm]
  · simp [((ebufWrite_ok ..).1 h).1]

/-- What `CloseRun` gives (41_encoder.md R106). -/
theorem closeRun_ok (ecap : Nat) (e e' : Encoder) :
    closeRun ecap e = .ok e' ↔ e.emark < ecap ∧
      e' = { ebuf := (e.ebuf.write e.emark e.ecode).erase e.ecur, emark := e.ecur,
             ecur := e.ecur + 1, ecode := 1#8, ephase := e.ephase } := by
  unfold closeRun
  split <;> rename_i h
  · simp [((backPatch_error ..).1 h).1]
  · obtain ⟨h₁, rfl⟩ := (backPatch_ok ..).1 h
    simp [h₁, eq_comm, reserve]

theorem closeRun_error (ecap : Nat) (e : Encoder) (f : Fault) :
    closeRun ecap e = .error f ↔ ecap ≤ e.emark ∧ f = .encBufferOverrun := by
  unfold closeRun
  split <;> rename_i h
  · obtain ⟨h₁, rfl⟩ := (backPatch_error ..).1 h
    simp [h₁, eq_comm]
  · simp [((backPatch_ok ..).1 h).1]

/-- What `ENC_BYTE` does with a 0x00 (41_encoder.md R102): nothing is copied, the run closes. -/
theorem encoderByte_zero (ecap : Nat) (e : Encoder) (h : e.ephase = .active) :
    encoderByte ecap Config.delim e = closeRun ecap e := by
  simp [encoderByte, h, copyLiteral]

/-- The encoder after a literal has been copied and counted (41_encoder.md R102). -/
def literalCopied (b : Byte) (e : Encoder) : Encoder :=
  { e with ebuf := e.ebuf.write e.ecur b, ecur := e.ecur + 1, ecode := e.ecode + 1#8 }

/-- What `ENC_BYTE` does with a literal for which there is a cell (41_encoder.md R102, R107): the run
closes at once when the literal makes it full. -/
theorem encoderByte_literal (ecap : Nat) (b : Byte) (e : Encoder) (h : e.ephase = .active)
    (hb : b ≠ Config.delim) (hc : e.ecur < ecap) :
    encoderByte ecap b e =
      if e.ecode + 1#8 = Config.codeFull then closeRun ecap (literalCopied b e)
      else .ok (literalCopied b e) := by
  have hp := (pushEbuf_ok ecap b e _).2 ⟨hc, rfl⟩
  simp only [encoderByte, copyLiteral, hb, hp, if_pos h, if_false, false_or]
  rfl

/-- A literal for which there is no cell faults (41_encoder.md R111). -/
theorem encoderByte_overrun (ecap : Nat) (b : Byte) (e : Encoder) (h : e.ephase = .active)
    (hb : b ≠ Config.delim) (hc : ecap ≤ e.ecur) :
    encoderByte ecap b e = .error .encBufferOverrun := by
  have hp := (pushEbuf_error ecap b e .encBufferOverrun).2 ⟨hc, rfl⟩
  simp [encoderByte, h, copyLiteral, hb, hp]

/-- Outside phase `Active`, `ENC_BYTE` faults (41_encoder.md R119). -/
theorem encoderByte_notActive (ecap : Nat) (b : Byte) (e : Encoder) (h : e.ephase ≠ .active) :
    encoderByte ecap b e = .error .encNotActive := by
  simp [encoderByte, h]

/-- Everything `ENC_BYTE` can give: the run closed by a 0x00, a literal copied, or a literal copied and
the full run closed (41_encoder.md R102). -/
theorem encoderByte_cases (ecap : Nat) (b : Byte) (e e' : Encoder)
    (h : encoderByte ecap b e = .ok e') :
    e.ephase = .active ∧
      ((b = Config.delim ∧ closeRun ecap e = .ok e') ∨
       (b ≠ Config.delim ∧ e.ecur < ecap ∧ e.ecode + 1#8 ≠ Config.codeFull ∧ e' = literalCopied b e) ∨
       (b ≠ Config.delim ∧ e.ecur < ecap ∧ e.ecode + 1#8 = Config.codeFull ∧
         closeRun ecap (literalCopied b e) = .ok e')) := by
  by_cases ha : e.ephase = .active
  · refine ⟨ha, ?_⟩
    by_cases hb : b = Config.delim
    · subst hb
      exact .inl ⟨rfl, by rwa [encoderByte_zero _ _ ha] at h⟩
    · rcases Nat.lt_or_ge e.ecur ecap with hc | hc
      · rw [encoderByte_literal _ _ _ ha hb hc] at h
        split_ifs at h with hf
        · exact .inr (.inr ⟨hb, hc, hf, h⟩)
        · exact .inr (.inl ⟨hb, hc, hf, (Except.ok.inj h).symm⟩)
      · rw [encoderByte_overrun _ _ _ ha hb hc] at h
        cases h
  · rw [encoderByte_notActive _ _ _ ha] at h
    cases h

/-- What `ENC_FINISH` gives, and when it completes (41_encoder.md R103). -/
theorem encoderFinish_ok (ecap : Nat) (e e' : Encoder) :
    encoderFinish ecap e = .ok e' ↔ e.ephase = .active ∧ e.emark < ecap ∧ e.ecur < ecap ∧
      e' = { e with ebuf := (e.ebuf.write e.emark e.ecode).write e.ecur Config.delim,
                    ecur := e.ecur + 1, ephase := .final } := by
  unfold encoderFinish
  split_ifs with ha
  · split <;> rename_i h
    · have h₁ := ((backPatch_error ..).1 h).1
      simp only [reduceCtorEq, false_iff, not_and]
      omega
    · obtain ⟨h₁, rfl⟩ := (backPatch_ok ..).1 h
      split <;> rename_i h'
      · have h₂ := ((pushEbuf_error ..).1 h').1
        simp only at h₂
        simp only [reduceCtorEq, false_iff, not_and]
        omega
      · obtain ⟨h₂, rfl⟩ := (pushEbuf_ok ..).1 h'
        simp only at h₂
        simp [ha, h₁, h₂, eq_comm]
  · simp [ha]

/-- When `ENC_FINISH` faults (41_encoder.md R103, R111, R119). -/
theorem encoderFinish_error (ecap : Nat) (e : Encoder) (f : Fault) :
    encoderFinish ecap e = .error f ↔
      (e.ephase ≠ .active ∧ f = .encNotActive) ∨
      (e.ephase = .active ∧ (ecap ≤ e.emark ∨ ecap ≤ e.ecur) ∧ f = .encBufferOverrun) := by
  unfold encoderFinish
  split_ifs with ha
  · split <;> rename_i h
    · obtain ⟨h₁, rfl⟩ := (backPatch_error ..).1 h
      simp [ha, h₁, eq_comm]
    · obtain ⟨h₁, rfl⟩ := (backPatch_ok ..).1 h
      split <;> rename_i h'
      · obtain ⟨h₂, rfl⟩ := (pushEbuf_error ..).1 h'
        simp only at h₂
        simp [ha, h₂, eq_comm]
      · have h₂ := ((pushEbuf_ok ..).1 h').1
        simp only at h₂
        simp only [reduceCtorEq, ha, ne_eq, not_true_eq_false, false_and, true_and, false_or, false_iff,
          not_and]
        omega
  · simp [ha, eq_comm]

end Sys2Proof.Machine
end

