-- ==== Sys2Proof/Laws/Exec.lean ====
section
/-! SUPPORT. What performing an operation can do: one lemma per operation says when it answers a next
state and which, one per operation when it faults. -/

namespace Sys2Proof.Machine

@[simp] theorem onNext_next {σ τ : Type} (s : σ) (f : σ → Host.Outcome τ Fault Refusal) :
    onNext (.next s) f = f s := rfl
@[simp] theorem onNext_fault {σ τ : Type} (r : Fault) (f : σ → Host.Outcome τ Fault Refusal) :
    onNext (.fault r) f = .fault r := rfl
@[simp] theorem onNext_refused {σ τ : Type} (r : Refusal) (f : σ → Host.Outcome τ Fault Refusal) :
    onNext (.refused r) f = .refused r := rfl

theorem onNext_eq_next {σ τ : Type} (o : Host.Outcome σ Fault Refusal)
    (f : σ → Host.Outcome τ Fault Refusal) (t : τ) :
    onNext o f = .next t ↔ ∃ s, o = .next s ∧ f s = .next t := by
  cases o <;> simp

theorem exec_encInit (s : State) :
    exec .encInit s = .next ({ s with enc := encoderInit s.enc }.respond ⟨.done, 0⟩) := rfl

theorem exec_encByte_next (b : Byte) (s t : State) :
    exec (.encByte b) s = .next t ↔ ∃ e, encoderByte s.params.ecap b s.enc = .ok e ∧
      t = { s with enc := e }.respond ⟨.done, 0⟩ := by
  show encoderDone _ _ _ = _ ↔ _
  unfold encoderDone
  split <;> rename_i h <;> simp [h, eq_comm]

theorem exec_encByte_fault (b : Byte) (s : State) (f : Fault) :
    exec (.encByte b) s = .fault f ↔ encoderByte s.params.ecap b s.enc = .error f := by
  show encoderDone _ _ _ = _ ↔ _
  unfold encoderDone
  split <;> rename_i h <;> simp [h]

theorem exec_encFinish_next (s t : State) :
    exec .encFinish s = .next t ↔ ∃ e, encoderFinish s.params.ecap s.enc = .ok e ∧
      t = { s with enc := e }.respond ⟨.done, e.ecur⟩ := by
  show encoderDone _ _ _ = _ ↔ _
  unfold encoderDone
  split <;> rename_i h <;> simp [h, eq_comm]

theorem exec_encFinish_fault (s : State) (f : Fault) :
    exec .encFinish s = .fault f ↔ encoderFinish s.params.ecap s.enc = .error f := by
  show encoderDone _ _ _ = _ ↔ _
  unfold encoderDone
  split <;> rename_i h <;> simp [h]

theorem exec_decInit_next (cap : Nat) (s t : State) :
    exec (.decInit cap) s = .next t ↔ cap ≤ s.params.dbufSize ∧
      t = { s with dec := decoderInit cap s.dec }.respond ⟨.done, 0⟩ := by
  show execDecInit _ _ = _ ↔ _
  unfold execDecInit decoderDone
  split_ifs with h <;> simp [h, eq_comm]

theorem exec_decInit_fault (cap : Nat) (s : State) (f : Fault) :
    exec (.decInit cap) s = .fault f ↔ s.params.dbufSize < cap ∧ f = .decCapTooLarge := by
  show execDecInit _ _ = _ ↔ _
  unfold execDecInit decoderDone
  split_ifs with h <;> simp [eq_comm] <;> omega

theorem exec_decByte_next (b : Byte) (s t : State) :
    exec (.decByte b) s = .next t ↔ s.dec.dphase = .ready ∧
      t = { s with dec := (decoderByte b s.dec).1 }.respond (decoderByte b s.dec).2 := by
  show execDecByte _ _ = _ ↔ _
  unfold execDecByte decoderDone
  split_ifs with h <;> simp [h, eq_comm]

theorem exec_decByte_fault (b : Byte) (s : State) (f : Fault) :
    exec (.decByte b) s = .fault f ↔ s.dec.dphase ≠ .ready ∧ f = .decNotReady := by
  show execDecByte _ _ = _ ↔ _
  unfold execDecByte decoderDone
  split_ifs with h <;> simp [h, eq_comm]

end Sys2Proof.Machine
end

