-- ==== Sys2Proof/Laws/Frame.lean ====
section
/-! SUPPORT. How `Stuff` and `EncLen` take a payload apart, one run at a time (41_encoder.md R112): a full
run of 254 non-zero bytes, a shorter run ended by a 0x00, or the last run; and the induction over
payloads that goes with it. -/

namespace Sys2Proof.Machine

/-- All bytes of a run are literals: none is 0x00. -/
abbrev nonZero (q : List Byte) : Prop := ∀ x ∈ q, x ≠ Config.delim

theorem segments_ne_nil (b : List Byte) : segments b ≠ [] := by
  cases b with
  | nil => simp [segments]
  | cons x bs =>
    simp only [segments]
    split_ifs
    · simp
    · split <;> simp

theorem segments_zero (bs : List Byte) : segments (Config.delim :: bs) = [] :: segments bs := by
  simp [segments]

/-- Non-zero bytes in front of a payload go to its first segment. -/
theorem segments_append (q bs : List Byte) (hq : nonZero q) :
    ∃ s ss, segments bs = s :: ss ∧ segments (q ++ bs) = (q ++ s) :: ss := by
  induction q with
  | nil =>
    obtain ⟨s, ss, h⟩ := List.exists_cons_of_ne_nil (segments_ne_nil bs)
    exact ⟨s, ss, h, by simp [h]⟩
  | cons x q ih =>
    obtain ⟨s, ss, h, h'⟩ := ih fun y hy => hq y (List.mem_cons_of_mem _ hy)
    refine ⟨s, ss, h, ?_⟩
    simp only [List.cons_append, segments, if_neg (hq x (List.mem_cons_self ..)), h']

/-- Non-zero bytes alone are one segment. -/
theorem segments_nonZero (q : List Byte) (hq : nonZero q) : segments q = [q] := by
  obtain ⟨s, ss, h, h'⟩ := segments_append q [] hq
  simp only [segments, List.cons.injEq] at h
  obtain ⟨rfl, rfl⟩ := h
  simpa using h'

/-- A segment shorter than a full run is one run. -/
theorem seg_short (q : List Byte) (h : q.length < Config.runCap) : seg q = runBytes q := by
  rw [seg, Nat.div_eq_of_lt h]
  rfl

/-- A segment that starts with 254 bytes starts with a full run. -/
theorem seg_full (q s : List Byte) (h : q.length = Config.runCap) :
    seg (q ++ s) = Config.codeFull :: (q ++ seg s) := by
  have hd : (q ++ s).length / Config.runCap = s.length / Config.runCap + 1 := by
    rw [List.length_append, h, Nat.add_comm, Nat.add_div_right _ (by decide)]
  rw [seg, hd, segRuns, ← h, List.take_left, List.drop_left, h]
  rfl

/-- `Stuff` of a payload that starts with a full run. -/
theorem stuff_full (q bs : List Byte) (hq : nonZero q) (h : q.length = Config.runCap) :
    stuff (q ++ bs) = Config.codeFull :: (q ++ stuff bs) := by
  obtain ⟨s, ss, h₁, h₂⟩ := segments_append q bs hq
  simp [stuff, h₁, h₂, seg_full q s h]

/-- `Stuff` of a payload that starts with a shorter run and a 0x00. -/
theorem stuff_zero (q bs : List Byte) (hq : nonZero q) (h : q.length < Config.runCap) :
    stuff (q ++ Config.delim :: bs) = runBytes q ++ stuff bs := by
  obtain ⟨s, ss, h₁, h₂⟩ := segments_append q (Config.delim :: bs) hq
  rw [segments_zero] at h₁
  obtain ⟨rfl, rfl⟩ := List.cons.inj h₁
  simp [stuff, h₂, seg_short q h]

/-- `Stuff` of a last run. -/
theorem stuff_last (q : List Byte) (hq : nonZero q) (h : q.length < Config.runCap) :
    stuff q = runBytes q ++ [Config.delim] := by
  simp [stuff, segments_nonZero q hq, seg_short q h]

/-- `EncLen` of a payload that starts with a full run. -/
theorem encLen_full (q bs : List Byte) (hq : nonZero q) (h : q.length = Config.runCap) :
    encLen (q ++ bs) = Config.runCap + 1 + encLen bs := by
  obtain ⟨s, ss, h₁, h₂⟩ := segments_append q bs hq
  have hd : (Config.runCap + s.length) / Config.runCap = s.length / Config.runCap + 1 := by
    rw [Nat.add_comm, Nat.add_div_right _ (by decide)]
  simp only [encLen, fullRunCount, h₁, h₂, List.map_cons, List.sum_cons, List.length_append, h, hd]
  omega

/-- `EncLen` of a payload that starts with a shorter run and a 0x00. -/
theorem encLen_zero (q bs : List Byte) (hq : nonZero q) (h : q.length < Config.runCap) :
    encLen (q ++ Config.delim :: bs) = q.length + 1 + encLen bs := by
  obtain ⟨s, ss, h₁, h₂⟩ := segments_append q (Config.delim :: bs) hq
  rw [segments_zero] at h₁
  obtain ⟨rfl, rfl⟩ := List.cons.inj h₁
  have hd : q.length / Config.runCap = 0 := Nat.div_eq_of_lt h
  simp only [encLen, fullRunCount, h₂, List.map_cons, List.sum_cons, List.length_append,
    List.length_cons, List.append_nil, hd]
  omega

/-- `EncLen` of a last run. -/
theorem encLen_last (q : List Byte) (hq : nonZero q) (h : q.length < Config.runCap) :
    encLen q = q.length + 2 := by
  simp [encLen, fullRunCount, segments_nonZero q hq, Nat.div_eq_of_lt h]

/-- Every payload is a last run, a shorter run and a 0x00 before a payload, or a full run before a
payload. -/
theorem payload_cases (b : List Byte) :
    (nonZero b ∧ b.length < Config.runCap) ∨
    (∃ q bs, b = q ++ Config.delim :: bs ∧ nonZero q ∧ q.length < Config.runCap) ∨
    (∃ q bs, b = q ++ bs ∧ nonZero q ∧ q.length = Config.runCap) := by
  by_cases hn : nonZero (b.take Config.runCap)
  · by_cases hl : b.length < Config.runCap
    · exact .inl ⟨by rwa [List.take_of_length_le (by omega)] at hn, hl⟩
    · refine .inr (.inr ⟨b.take Config.runCap, b.drop Config.runCap, ?_, hn, ?_⟩)
      · rw [List.take_append_drop]
      · simp only [List.length_take]
        omega
  · refine .inr (.inl ?_)
    simp only [nonZero, not_forall, not_not] at hn
    obtain ⟨x, hx, h0⟩ := hn
    subst h0
    obtain ⟨q, r, hqr, hq⟩ := List.eq_append_cons_of_mem hx
    refine ⟨q, r ++ b.drop Config.runCap, ?_, fun y hy h => hq (h ▸ hy), ?_⟩
    · conv_lhs => rw [← List.take_append_drop Config.runCap b, hqr]
      simp
    · have := congrArg List.length hqr
      simp only [List.length_take, List.length_append, List.length_cons] at this
      omega

/-- Induction over payloads, run by run. -/
theorem payload_induction (P : List Byte → Prop)
    (last : ∀ q, nonZero q → q.length < Config.runCap → P q)
    (zero : ∀ q bs, nonZero q → q.length < Config.runCap → P bs → P (q ++ Config.delim :: bs))
    (full : ∀ q bs, nonZero q → q.length = Config.runCap → P bs → P (q ++ bs)) (b : List Byte) : P b := by
  induction hn : b.length using Nat.strongRecOn generalizing b with
  | ind n ih =>
    rcases payload_cases b with ⟨hq, hl⟩ | ⟨q, bs, rfl, hq, hl⟩ | ⟨q, bs, rfl, hq, hl⟩
    · exact last b hq hl
    · refine zero q bs hq hl (ih bs.length ?_ bs rfl)
      simp only [List.length_append, List.length_cons] at hn
      omega
    · refine full q bs hq hl (ih bs.length ?_ bs rfl)
      simp only [List.length_append, hl, Config.runCap] at hn
      omega

end Sys2Proof.Machine
end

