-- ==== Sys2Proof/Laws/PerInstr.lean ====
section
/-! SUPPORT. One statement per instruction as syntax: its command word lies in the opcode-table row that
carries its mnemonic (30_encoding.md R82). -/

namespace Sys2Proof.Laws.OpcodeRow

open Sys2Proof

/-- The command word of the instruction matches a row of the opcode table, the row of its mnemonic. -/
def Statement (i : Instr) : Prop :=
  i.wf = true → ∃ r ∈ opcodeTable, r.mnemonic = mnemonicOf i ∧ rowMatches r (encode i) = true

theorem encInit : Statement .encInit :=
  fun _ => ⟨opcodeTable[0], by simp [opcodeTable], rfl, by decide⟩

theorem encByte (b : Byte) : Statement (.encByte b) := by
  refine fun _ => ⟨opcodeTable[1], by simp [opcodeTable], rfl, ?_⟩
  revert b
  decide

theorem encFinish : Statement .encFinish :=
  fun _ => ⟨opcodeTable[2], by simp [opcodeTable], rfl, by decide⟩

theorem decInit (cap : Nat) : Statement (.decInit cap) := by
  refine fun _ => ⟨opcodeTable[3], by simp [opcodeTable], rfl, ?_⟩
  simp only [rowMatches, beq_iff_eq]
  refine BitVec.eq_of_getLsbD_eq fun i hi => ?_
  simp only [encode, cmdOf, opOf, argOf, BitVec.getLsbD_and, BitVec.getLsbD_or, BitVec.getLsbD_shiftLeft,
    BitVec.getLsbD_setWidth]
  interval_cases i <;> simp [opcodeTable]

theorem decByte (b : Byte) : Statement (.decByte b) := by
  refine fun _ => ⟨opcodeTable[4], by simp [opcodeTable], rfl, ?_⟩
  revert b
  decide

end Sys2Proof.Laws.OpcodeRow
end

