-- ==== Sys2Proof/Laws/Words.lean ====
section
/-! SUPPORT. The fields of a command word: what the format puts in, its readers take out
(30_encoding.md R81). -/

namespace Sys2Proof

@[simp] theorem cmdOp_cmdOf (op : BitVec 8) (arg : BitVec 32) : cmdOp (cmdOf op arg) = op := by
  refine BitVec.eq_of_getLsbD_eq fun i hi => ?_
  simp only [cmdOp, cmdOf, BitVec.getLsbD_extractLsb', BitVec.getLsbD_or, BitVec.getLsbD_shiftLeft,
    BitVec.getLsbD_setWidth, hi, decide_true, Bool.true_and, Nat.add_sub_cancel_left]
  simp only [show 32 + i < 40 by omega, show ¬ 32 + i < 32 by omega, show i < 40 by omega, decide_true,
    decide_false, Bool.not_false, Bool.true_and]
  simp

@[simp] theorem cmdArg_cmdOf (op : BitVec 8) (arg : BitVec 32) : cmdArg (cmdOf op arg) = arg := by
  refine BitVec.eq_of_getLsbD_eq fun i hi => ?_
  simp only [cmdArg, cmdOf, BitVec.getLsbD_extractLsb', BitVec.getLsbD_or, BitVec.getLsbD_shiftLeft,
    BitVec.getLsbD_setWidth, hi, decide_true, Bool.true_and, Nat.zero_add]
  simp [show i < 40 by omega]

/-- A command word is its two fields. -/
@[simp] theorem cmdOf_fields (w : CmdWord) : cmdOf (cmdOp w) (cmdArg w) = w := by
  refine BitVec.eq_of_getLsbD_eq fun i hi => ?_
  simp only [cmdOp, cmdArg, cmdOf, BitVec.getLsbD_extractLsb', BitVec.getLsbD_or,
    BitVec.getLsbD_shiftLeft, BitVec.getLsbD_setWidth, hi, decide_true, Bool.true_and, Nat.zero_add]
  by_cases h : i < 32
  · simp [h]
  · simp [h, show i - 32 < 40 by omega, show i - 32 < 8 by omega, show 32 + (i - 32) = i by omega]

@[simp] theorem argByte_setWidth (b : Byte) : argByte (b.setWidth 32) = b := by
  refine BitVec.eq_of_getLsbD_eq fun i hi => ?_
  simp [argByte, hi, show i < 32 by omega]

@[simp] theorem argHigh_setWidth (b : Byte) : argHigh (b.setWidth 32) = 0#24 := by
  refine BitVec.eq_of_getLsbD_eq fun i hi => ?_
  simp [argHigh, hi]

/-- An operand field whose high bits are zero is its byte. -/
theorem argByte_of_argHigh (a : BitVec 32) (h : argHigh a = 0#24) : (argByte a).setWidth 32 = a := by
  refine BitVec.eq_of_getLsbD_eq fun i hi => ?_
  by_cases h8 : i < 8
  · simp [argByte, h8, hi]
  · have hb := congrArg (fun x : BitVec 24 => x.getLsbD (i - 8)) h
    simp only [argHigh, BitVec.getLsbD_extractLsb', show 8 + (i - 8) = i by omega,
      show i - 8 < 24 by omega, decide_true, Bool.true_and, BitVec.getLsbD_zero] at hb
    simp [argByte, h8, hb]

end Sys2Proof
end

