-- ==== Sys2Proof/Machine/Asm.lean ====
section
/-! DEFINITION. The assembler text of an operation (30_encoding.md R87): one operation per line, the
mnemonic in capitals, then its operand; `;` starts a comment; `OP x N` repeats. What R87 leaves open
(blanks, the case of hexadecimal digits) is in notes/assumptions/19.md. -/

namespace Sys2Proof.Machine

/-- One line of assembler text. -/
inductive AsmLine where
  /-- An empty line, or a comment only. -/
  | blank
  /-- An operation, issued `times` times (`OP x N`; once without it). -/
  | op (i : Instr) (times : Nat)
  /-- `ENC_CHUNK [..]`. -/
  | encChunk (bytes : List Byte)
  /-- `ENC_FRAME [..]`. -/
  | encFrame (bytes : List Byte)
  /-- `DEC_FEED [..]`. -/
  | decFeed (bytes : List Byte)
  /-- `DEC_ONESHOT cap [..]`. -/
  | decOneshot (cap : Nat) (bytes : List Byte)
deriving DecidableEq, Repr

/-- The digits of an operand (30_encoding.md R87), each at the index that is its value. -/
def operandDigits : List Char := "0123456789ABCDEF".toList

/-- A hexadecimal digit in capitals. -/
def hexDigit (n : Nat) : Char := operandDigits.getD n '0'

/-- A byte operand, `0xNN` (30_encoding.md R87). -/
def asmByte (b : Byte) : String :=
  "0x" ++ String.ofList [hexDigit (b.toNat / 16), hexDigit (b.toNat % 16)]

/-- The text of an operation (30_encoding.md R87); a capacity is written in decimal. -/
def asmText : Instr → String
  | .encInit => "ENC_INIT"
  | .encByte b => "ENC_BYTE " ++ asmByte b
  | .encFinish => "ENC_FINISH"
  | .decInit cap => "DEC_INIT " ++ String.ofList (Nat.toDigits 10 cap)
  | .decByte b => "DEC_BYTE " ++ asmByte b

/-- The value of a character as a digit, a hexadecimal digit in either case; 16 if it is no digit. -/
def digitValue (ch : Char) : Nat := operandDigits.idxOf ch.toUpper

/-- The number that digits in a base spell, most significant first, if each is a digit of that base. -/
def readDigits (base : Nat) (digits : List Char) : Option Nat :=
  let values := digits.map digitValue
  if values.all (· < base) then some (values.foldl (fun n v => base * n + v) 0) else none

/-- A number in decimal or `0x` hexadecimal (30_encoding.md R87). -/
def readNumber : List Char → Option Nat
  | [] => none
  | '0' :: 'x' :: c :: cs => readDigits 16 (c :: cs)
  | cs => readDigits 10 cs

/-- A byte operand: exactly `0xNN` (30_encoding.md R87). -/
def readByte : List Char → Option Byte
  | ['0', 'x', h, l] => (readDigits 16 [h, l]).map (BitVec.ofNat 8)
  | _ => none

/-- The end of a word that has been gathered. -/
def flushWord (word : List Char) : List (List Char) := if word.isEmpty then [] else [word]

/-- The words of a line: blanks separate them; a bracket or a comma is a word of its own. -/
def asmWords : List Char → List Char → List (List Char)
  | [], word => flushWord word
  | c :: cs, word =>
    if c = ' ' ∨ c = '\t' then flushWord word ++ asmWords cs []
    else if c = '[' ∨ c = ']' ∨ c = ',' then flushWord word ++ [c] :: asmWords cs []
    else asmWords cs (word ++ [c])

/-- The rest of a byte sequence after one of its bytes: a comma and a byte, again and again, then `]`. -/
def readBytesTail : List (List Char) → Option (List Byte)
  | [[']']] => some []
  | [','] :: w :: ws =>
    match readByte w, readBytesTail ws with
    | some b, some bs => some (b :: bs)
    | _, _ => none
  | _ => none

/-- A byte-sequence argument, `[0x11, 0x22]` (30_encoding.md R87). -/
def readBytes : List (List Char) → Option (List Byte)
  | [['['], [']']] => some []
  | ['['] :: w :: ws =>
    match readByte w, readBytesTail ws with
    | some b, some bs => some (b :: bs)
    | _, _ => none
  | _ => none

/-- What may follow an operation: nothing, or `x N` (30_encoding.md R87). -/
def readTimes (i : Instr) : List (List Char) → Option AsmLine
  | [] => some (.op i 1)
  | [['x'], n] => (readNumber n).map (.op i)
  | _ => none

/-- A capacity operand, within the range of 30_encoding.md R80. -/
def readCap (w : List Char) : Option Nat :=
  match readNumber w with
  | some cap => if cap < 2 ^ Config.idxw then some cap else none
  | none => none

/-- The line a list of words spells, none if it spells none (30_encoding.md R87, R88). -/
def readWords : List (List Char) → Option AsmLine
  | [] => some .blank
  | m :: ws =>
    if m = "ENC_INIT".toList then readTimes .encInit ws
    else if m = "ENC_FINISH".toList then readTimes .encFinish ws
    else if m = "ENC_CHUNK".toList then (readBytes ws).map .encChunk
    else if m = "ENC_FRAME".toList then (readBytes ws).map .encFrame
    else if m = "DEC_FEED".toList then (readBytes ws).map .decFeed
    else
      match ws with
      | [] => none
      | a :: ws' =>
        if m = "ENC_BYTE".toList then
          match readByte a with
          | some b => readTimes (.encByte b) ws'
          | none => none
        else if m = "DEC_BYTE".toList then
          match readByte a with
          | some b => readTimes (.decByte b) ws'
          | none => none
        else if m = "DEC_INIT".toList then
          match readCap a with
          | some cap => readTimes (.decInit cap) ws'
          | none => none
        else if m = "DEC_ONESHOT".toList then
          match readCap a, readBytes ws' with
          | some cap, some bs => some (.decOneshot cap bs)
          | _, _ => none
        else none

/-- One line of text, its comment left out (30_encoding.md R87). -/
def readLine (line : String) : Option AsmLine :=
  readWords (asmWords (line.toList.takeWhile fun c => c != ';') [])

/-- What the host does at a line (30_encoding.md R87, R88). -/
def runLine (l : AsmLine) (s : State) : Host.Outcome State Fault Refusal :=
  match l with
  | .blank => .next s
  | .op i n => runOps (List.replicate n i) s
  | .encChunk bs => onNext (encChunk bs s) fun r => .next r.1
  | .encFrame bs => onNext (encFrame bs s) fun r => .next r.1
  | .decFeed bs => onNext (decFeed bs s) fun r => .next r.1
  | .decOneshot cap bs => onNext (decOneshot cap bs s) fun r => .next r.1

end Sys2Proof.Machine
end

