-- ==== Sys2Proof/Machine/CrcVariants.lean ====
section
/-! DEFINITION. The six variants 42_crc_engine.md R137 names, with the parameters and the way to make a
table that 95_test_vectors.md section 4 gives. The spec marks both as general knowledge
(93_implementation_defined.md K1, K2). Mark: PRESUMED (notes/assumptions/18.md). -/

namespace Sys2Proof.Machine

/-- One of the eight turns of a reflected table entry (95_test_vectors.md section 4): `poly` is the
bit-reversed polynomial. -/
def crcTurnReflected {n : Nat} (poly e : BitVec n) : BitVec n :=
  if e.getLsbD 0 then (e >>> 1) ^^^ poly else e >>> 1

/-- One of the eight turns of a normal table entry (95_test_vectors.md section 4). -/
def crcTurnNormal {n : Nat} (poly e : BitVec n) : BitVec n :=
  if e.getMsbD 0 then (e <<< 1) ^^^ poly else e <<< 1

/-- A turn made again and again. -/
def crcTurns {n : Nat} (turn : BitVec n → BitVec n) : Nat → BitVec n → BitVec n
  | 0, e => e
  | k + 1, e => crcTurns turn k (turn e)

/-- The 256 entries of a reflected table. -/
def crcTableReflected (w : CrcWidth) (poly : BitVec w.bits) : List (BitVec w.bits) :=
  (List.range 256).map fun i => crcTurns (crcTurnReflected poly.reverse) 8 (BitVec.ofNat w.bits i)

/-- The 256 entries of a normal table. -/
def crcTableNormal (w : CrcWidth) (poly : BitVec w.bits) : List (BitVec w.bits) :=
  (List.range 256).map fun i =>
    crcTurns (crcTurnNormal poly) 8 (BitVec.ofNat w.bits i <<< (w.bits - 8))

/-- CRC-8/DARC. -/
def crc8Darc : CrcVariant :=
  { width := .w8, table := crcTableReflected .w8 0x39#8, init := 0x00#8, xorout := 0x00#8, reflected := true }

/-- CRC-8/I-CODE. -/
def crc8ICode : CrcVariant :=
  { width := .w8, table := crcTableNormal .w8 0x1D#8, init := 0xFD#8, xorout := 0x00#8, reflected := false }

/-- CRC-16/KERMIT. -/
def crc16Kermit : CrcVariant :=
  { width := .w16, table := crcTableReflected .w16 0x1021#16, init := 0x0000#16, xorout := 0x0000#16,
    reflected := true }

/-- CRC-16/CCITT-FALSE. -/
def crc16CcittFalse : CrcVariant :=
  { width := .w16, table := crcTableNormal .w16 0x1021#16, init := 0xFFFF#16, xorout := 0x0000#16,
    reflected := false }

/-- CRC-32. -/
def crc32 : CrcVariant :=
  { width := .w32, table := crcTableReflected .w32 0x04C11DB7#32, init := 0xFFFFFFFF#32,
    xorout := 0xFFFFFFFF#32, reflected := true }

/-- CRC-32/MPEG-2. -/
def crc32Mpeg2 : CrcVariant :=
  { width := .w32, table := crcTableNormal .w32 0x04C11DB7#32, init := 0xFFFFFFFF#32,
    xorout := 0x00000000#32, reflected := false }

end Sys2Proof.Machine
end

