-- ==== Sys2Proof/Tests/Slice0.lean ====
section
/-! SUPPORT. The model's own tests, their expected results from the spec's tables, and a witness for the
hypotheses of every statement that has some. -/

namespace Sys2Proof.Tests

open Sys2Proof Sys2Proof.Machine

/-! ## States built by hand -/

/-- An encoder state over `ecap` cells, with an uninitialised decoder. -/
def encAt (ecap : Nat) (cells : Memory) (emark ecur : Nat) (ecode : Byte) (ph : EncPhase) : State :=
  { State.powerOn ⟨ecap, 4⟩ with
    enc := { ebuf := cells, emark := emark, ecur := ecur, ecode := ecode, ephase := ph } }

/-- An initialised decoder state over `size` cells, with an uninitialised encoder. -/
def decAt (size : Nat) (cells : Memory) (dcap dw : Nat) (drem : Byte) (dmand : Bool) : State :=
  { State.powerOn ⟨4, size⟩ with
    dec := { dbuf := cells, dcap := dcap, dw := dw, drem := drem, dmand := dmand, dphase := .ready } }

/-- The `n` cells from index `a` on, each holding 0x01. -/
def ones (a : Nat) : Nat → Memory
  | 0 => []
  | n + 1 => (a, 0x01#8) :: ones (a + 1) n

/-- A first run under construction with `n` literals 0x01, in a buffer of `ecap` cells. -/
def openRun (ecap n : Nat) : State := encAt ecap (ones 1 n) 0 (n + 1) (BitVec.ofNat 8 (n + 1)) .active

/-- The next state meets `p`. -/
def nextMeets (o : Host.Outcome State Fault Refusal) (p : State → Bool) : Bool :=
  match o with
  | .next t => p t
  | _ => false

/-- The registers of the encoder, as 95_test_vectors.md writes them. -/
def encRegs (s : State) : Nat × Nat × Byte := (s.enc.emark, s.enc.ecur, s.enc.ecode)

/-- The registers of the decoder, as 95_test_vectors.md writes them. -/
def decRegs (s : State) : Nat × Nat × Byte × Bool := (s.dec.dcap, s.dec.dw, s.dec.drem, s.dec.dmand)

theorem read_ones (n a i : Nat) :
    (ones a n).read i = if a ≤ i ∧ i < a + n then some 0x01#8 else none := by
  induction n generalizing a with
  | zero => simp [ones, show ¬ (a ≤ i ∧ i < a) by omega]
  | succ n ih =>
    simp only [ones, Memory.read, ih]
    split_ifs <;> first | rfl | omega

theorem ones_bounds (n a : Nat) : ∀ c ∈ ones a n, a ≤ c.1 ∧ c.1 < a + n := by
  induction n generalizing a with
  | zero => simp [ones]
  | succ n ih =>
    intro c hc
    rcases List.mem_cons.1 hc with rfl | hc
    · simp
    · have := ih (a + 1) c hc
      omega

theorem ones_wf (n a : Nat) : (ones a n).wf := by
  induction n generalizing a with
  | zero => simp [ones, Memory.wf]
  | succ n ih =>
    refine List.Pairwise.cons (fun c hc => ?_) (ih (a + 1))
    have := ones_bounds n (a + 1) c hc
    simp only
    omega

/-- An untouched encoder meets its invariant. -/
theorem idle_enc_inv (ecap : Nat) (p : Params) : Encoder.Inv ecap (State.powerOn p).enc := by
  constructor <;> simp [State.powerOn]

/-- An untouched decoder meets its invariant. -/
theorem idle_dec_inv (size : Nat) (p : Params) : Decoder.Inv size (State.powerOn p).dec := by
  constructor <;> simp [State.powerOn, Memory.filled]

/-- A run under construction meets the invariant. -/
theorem openRun_inv (ecap n : Nat) (hn : n ≤ 253) (hc : n < ecap) (hw : ecap + 1 < 2 ^ Config.idxw) :
    (openRun ecap n).Inv := by
  have hcode : (BitVec.ofNat 8 (n + 1)).toNat = n + 1 := by
    rw [BitVec.toNat_ofNat]
    exact Nat.mod_eq_of_lt (by omega)
  refine ⟨⟨hw, by simp [openRun, encAt, State.powerOn, Config.idxw]⟩, ?_, idle_dec_inv _ ⟨ecap, 4⟩⟩
  constructor <;> simp only [openRun, encAt, State.powerOn, hcode, read_ones] <;> intros
  · exact ones_wf n 1
  · intro c h
    have := ones_bounds n 1 c h
    omega
  any_goals omega
  · simp
  · rw [if_pos (by omega)]
    rfl
  · split_ifs <;> simp [Config.delim]
  · exact .stop 0
  · rename_i h
    cases h

/-- A decoder with `n` payload bytes 0x01 meets the invariant. -/
theorem decAt_inv (size cap n : Nat) (drem : Byte) (dmand : Bool) (hn : n ≤ cap) (hc : cap ≤ size)
    (hs : size < 2 ^ Config.idxw) (hr : drem.toNat ≤ 254) : (decAt size (ones 0 n) cap n drem dmand).Inv := by
  refine ⟨⟨by simp [decAt, State.powerOn, Config.idxw], hs⟩, idle_enc_inv _ ⟨4, size⟩, ?_⟩
  constructor <;> simp only [decAt]
  · exact ones_wf n 0
  · intro c h
    have := ones_bounds n 0 c h
    simp only [State.powerOn]
    omega
  · exact hn
  · exact hc
  · exact hr
  · intro i hi
    rw [read_ones, if_pos (by omega)]
    rfl

/-! ## Well-formedness -/

theorem test_wf_refuses_wide_capacity : Instr.wf (.decInit 4294967296) = false := by decide

theorem test_wf_accepts_widest_capacity : Instr.wf (.decInit 4294967295) = true := by decide

theorem test_wf_refuses_wide_value : Response.wf ⟨.frameAvailable, 4294967296⟩ = false := by decide

/-! ## Words, written out bit by bit from opcode_table.json and 30_encoding.md R81 to R86 -/

theorem test_word_enc_init : decode 0b0000000100000000000000000000000000000000#40 = .ok .encInit := by rfl

theorem test_word_enc_byte :
    decode 0b0000001000000000000000000000000010000001#40 = .ok (.encByte 0x81#8) := by rfl

theorem test_word_enc_finish : decode 0b0000001100000000000000000000000000000000#40 = .ok .encFinish := by
  rfl

theorem test_word_dec_init :
    decode 0b0001000110000000000000000000000000000010#40 = .ok (.decInit 2147483650) := by rfl

theorem test_word_dec_byte :
    decode 0b0001001000000000000000000000000000000001#40 = .ok (.decByte 0x01#8) := by rfl

theorem test_word_dec_byte_high_bit :
    decode 0b0001001000000000000000000000000100000001#40 = .error .mustBeZero := by rfl

theorem test_word_enc_finish_arg :
    decode 0b0000001110000000000000000000000000000000#40 = .error .mustBeZero := by rfl

theorem test_word_unassigned : decode 0b0001000000000000000000000000000000000000#40 = .error .unassignedOp := by
  rfl

/-- W7 of 95_test_vectors.md section 2.6, through the host's question. -/
theorem test_table_word : decodeTableWord 40 0x12000000FF = some (.decByte 0xFF#8) := by rfl

/-- X2 of 95_test_vectors.md section 2.6. -/
theorem test_response_word : encodeResponse ⟨.frameAvailable, 4⟩ = 0x0100000004#40 := by rfl

/-- X5 of 95_test_vectors.md section 2.6. -/
theorem test_response_word_done : encodeResponse ⟨.done, 6⟩ = 0x0500000006#40 := by rfl

/-- Codes 6 and 7 are reserved (30_encoding.md R86). -/
theorem test_response_word_reserved : decodeResponse 0x0600000000#40 = none := by rfl

/-! ## One step -/

/-- P1 step 1: from reset, `ENC_INIT` as a command word. -/
theorem test_step_from_reset :
    nextMeets (step (State.reset.withFetchWord 40 0x0100000000)) (fun t =>
      encRegs t == (0, 1, 0x01#8) && t.enc.ephase == .active && t.host.commands.isEmpty &&
        t.lastResponse == some ⟨.done, 0⟩) = true := by rfl

/-- F10: the second `ENC_INIT` abandons the first frame; cell 1 still holds 11. -/
theorem test_enc_init_abandons :
    nextMeets (exec .encInit (encAt 8 [(1, 0x11#8)] 0 2 0x02#8 .active)) (fun t =>
      encRegs t == (0, 1, 0x01#8) && t.enc.ebuf == [(1, 0x11#8)]) = true := by rfl

/-- P1 step 4: `ENC_BYTE 0x00` closes the run of 11 22. -/
theorem test_enc_byte_zero :
    nextMeets (exec (.encByte 0x00#8) (encAt 8 [(1, 0x11#8), (2, 0x22#8)] 0 3 0x03#8 .active)) (fun t =>
      encRegs t == (3, 4, 0x01#8) &&
        t.enc.ebuf == [(0, 0x03#8), (1, 0x11#8), (2, 0x22#8)]) = true := by rfl

/-- E10: the 254th literal closes the run with marker FF and reserves cell 255. -/
theorem test_enc_byte_full_run :
    nextMeets (exec (.encByte 0x01#8) (encAt 300 [(255, 0x77#8)] 0 254 0xFE#8 .active)) (fun t =>
      encRegs t == (255, 256, 0x01#8) &&
        t.enc.ebuf == [(0, 0xFF#8), (254, 0x01#8)]) = true := by rfl

/-- P1 step 6: `ENC_FINISH` writes the last marker and the terminator and returns the length. -/
theorem test_enc_finish :
    nextMeets (exec .encFinish
        (encAt 8 [(0, 0x03#8), (1, 0x11#8), (2, 0x22#8), (4, 0x33#8)] 3 5 0x02#8 .active)) (fun t =>
      encRegs t == (3, 6, 0x02#8) && t.enc.ephase == .final && t.lastResponse == some ⟨.done, 6⟩ &&
        t.enc.ebuf.read 3 == some 0x02#8 && t.enc.ebuf.read 5 == some 0x00#8) = true := by rfl

/-- F5: with one cell there is no room for the terminator. -/
theorem test_enc_finish_overrun : exec .encFinish (encAt 1 [] 0 1 0x01#8 .active) = .fault .encBufferOverrun := by
  rfl

/-- Q4: `DEC_INIT` in mid-frame abandons the frame; cell 0 still holds 11. -/
theorem test_dec_init_abandons :
    nextMeets (exec (.decInit 2) (decAt 4 [(0, 0x11#8)] 4 1 0x01#8 false)) (fun t =>
      decRegs t == (2, 0, 0x00#8, true) && t.dec.dbuf == [(0, 0x11#8)]) = true := by rfl

/-- Q2: a capacity the buffer does not have. -/
theorem test_dec_init_too_large :
    exec (.decInit 5) (State.powerOn ⟨8, 4⟩) = .fault .decCapTooLarge := by rfl

/-- V3, the second byte: the marker 01 writes the owed delimiter. -/
theorem test_dec_byte_owed :
    nextMeets (exec (.decByte 0x01#8) (decAt 4 [] 4 0 0x00#8 false)) (fun t =>
      decRegs t == (4, 1, 0x00#8, false) && t.dec.dbuf == [(0, 0x00#8)] &&
        t.lastResponse == some ⟨.processing, 0⟩) = true := by rfl

/-- V20, the byte 44: overflow exactly at the byte that would exceed the capacity. -/
theorem test_dec_byte_overflow :
    nextMeets (exec (.decByte 0x44#8)
        (decAt 4 [(0, 0x11#8), (1, 0x22#8), (2, 0x33#8)] 3 3 0x01#8 false)) (fun t =>
      decRegs t == (3, 0, 0x00#8, true) && t.dec.dbuf.read 3 == none &&
        t.lastResponse == some ⟨.overflow, 0⟩) = true := by rfl

/-! ## Host reads, pseudo-operations and pure functions -/

/-- The byte sequence of a host read of `n` cells from 0, or none. -/
def readBack (sp : Space) (s : State) (n : Nat) : Option (List Byte) :=
  match hostReadFrom sp 0 s n with
  | .next bs => some bs
  | _ => none

/-- The final frame of P1, read back (20_memory.md R54). -/
theorem test_host_read : readBack .ebuf (encAt 3 [(0, 0x02#8), (1, 0x11#8), (2, 0x00#8)] 0 3 0x02#8 .final) 3 =
    some [0x02#8, 0x11#8, 0x00#8] := by rfl

/-- A reserved marker cell has no value to read (20_memory.md R54). -/
theorem test_host_read_reserved :
    hostRead .ebuf 0 (encAt 3 [(1, 0x11#8)] 0 2 0x02#8 .active) = .refused .cellWithoutValue := by rfl

/-- E4: `encode([11])`. -/
theorem test_encode_call :
    (match encodeCall [0x11#8] (State.powerOn ⟨3, 0⟩) with
      | .next r => some r.2
      | _ => none) = some [0x02#8, 0x11#8, 0x00#8] := by rfl

/-- V10: `03 11 00` is malformed at its third byte. -/
theorem test_decode_call :
    (match decOneshot 4 [0x03#8, 0x11#8, 0x00#8] (State.powerOn ⟨3, 4⟩) with
      | .next r => some r.2
      | _ => none) = some ⟨.malformedFrame, 0, 3⟩ := by rfl

/-- S3. -/
theorem test_stuff : stuff [0x11#8, 0x22#8, 0x00#8, 0x33#8] =
    [0x03#8, 0x11#8, 0x22#8, 0x02#8, 0x33#8, 0x00#8] := by rfl

set_option maxRecDepth 8000 in
/-- E10. -/
theorem test_stuff_full_run : stuff (List.replicate 254 0x01#8) =
    0xFF#8 :: (List.replicate 254 0x01#8 ++ [0x01#8, 0x00#8]) := by rfl

set_option maxRecDepth 8000 in
/-- E12. -/
theorem test_stuff_full_run_zero : encLen (List.replicate 254 0x01#8 ++ [0x00#8]) = 258 := by rfl

/-- V6. -/
theorem test_unstuff : unstuff [0x02#8, 0x11#8, 0x01#8, 0x00#8] = some [0x11#8, 0x00#8] := by rfl

/-- V11: a run that swallows the terminator. -/
theorem test_unstuff_undefined : unstuff [0x02#8, 0x00#8] = none := by rfl

/-- M6. -/
theorem test_capacity_254 :
    (maxEncodeLen 254, safeEncodeLen 254, maxDecodeLen 254) = (256, 257, 252) := by rfl

/-- M2. -/
theorem test_capacity_1 : (maxEncodeLen 1, safeEncodeLen 1, maxDecodeLen 1) = (3, 3, 0) := by rfl

/-- The nine bytes of 42_crc_engine.md R138. -/
def nine : List Byte := [0x31#8, 0x32#8, 0x33#8, 0x34#8, 0x35#8, 0x36#8, 0x37#8, 0x38#8, 0x39#8]

set_option maxRecDepth 8000 in
/-- S13. -/
theorem test_crc32 : crcBlock crc32 nine = 0xCBF43926#32 := by rfl

set_option maxRecDepth 8000 in
/-- S14. -/
theorem test_crc16_kermit : crcBlock crc16Kermit nine = 0x2189#16 := by rfl

set_option maxRecDepth 8000 in
/-- 95_test_vectors.md section 4: a normal variant, 16 bits. -/
theorem test_crc16_ccitt_false : crcBlock crc16CcittFalse nine = 0x29B1#16 := by rfl

set_option maxRecDepth 8000 in
/-- 95_test_vectors.md section 4: a normal variant, 32 bits. -/
theorem test_crc32_mpeg2 : crcBlock crc32Mpeg2 nine = 0x0376E6E7#32 := by rfl

set_option maxRecDepth 8000 in
/-- 95_test_vectors.md section 4: a reflected variant, 8 bits. -/
theorem test_crc8_darc : crcBlock crc8Darc nine = 0x15#8 := by rfl

set_option maxRecDepth 8000 in
/-- 95_test_vectors.md section 4: a normal variant, 8 bits. -/
theorem test_crc8_icode : crcBlock crc8ICode nine = 0x7E#8 := by rfl

/-- 30_encoding.md R87. -/
theorem test_asm_text : asmText (.encByte 0xA5#8) = "ENC_BYTE 0xA5" := by rfl

/-- 30_encoding.md R87: an operand, a repetition and a comment. -/
theorem test_asm_line : readLine "ENC_BYTE 0x01 x 254 ; a full run" = some (.op (.encByte 0x01#8) 254) := by
  rfl

/-- 30_encoding.md R87: a capacity in `0x` hexadecimal, and a hexadecimal digit in no decimal number. -/
theorem test_asm_capacity :
    readLine "DEC_INIT 0xfF" = some (.op (.decInit 255) 1) ∧ readLine "DEC_INIT 1F" = none := ⟨by rfl, by rfl⟩

/-- 30_encoding.md R87: a byte sequence. -/
theorem test_asm_sequence : readLine "DEC_ONESHOT 4 [0x01, 0x00]" =
    some (.decOneshot 4 [0x01#8, 0x00#8]) := by rfl

/-! ## Witnesses: the hypotheses of each statement hold together somewhere, at its boundaries -/

/-- Other commands change nothing the invariant speaks of. -/
theorem withCommands_inv {s : State} (h : s.Inv) (ws : List CmdWord) : (s.withCommands ws).Inv :=
  ⟨h.params, h.enc, h.dec⟩

/-- A decoder in its initial state. -/
abbrev fresh (size cap : Nat) : State := decAt size [] cap 0 0x00#8 true

theorem fresh_initial (size cap : Nat) : (fresh size cap).dec.initial := ⟨rfl, rfl, rfl⟩

theorem witness_decode_of_encode : ∃ i : Instr, i.wf = true := ⟨.decInit 4294967295, by decide⟩

theorem witness_encode_of_decode : ∃ w i, decode w = .ok i :=
  ⟨0x0200000011#40, .encByte 0x11#8, rfl⟩

theorem witness_matched_word : ∃ r ∈ opcodeTable, ∃ w, rowMatches r w = true :=
  ⟨_, List.mem_cons_self .., 0x0100000000#40, by decide⟩

theorem witness_unmatched_op : ∃ (s : State) (w : CmdWord) (rest : List CmdWord),
    (∀ r ∈ opcodeTable, rowMatches r w = false) ∧ s.host.commands = w :: rest :=
  ⟨State.reset.withCommands [0x0400000000#40], _, _, by decide, rfl⟩

theorem witness_unmatched_arg : ∃ (s : State) (w : CmdWord) (rest : List CmdWord),
    (∀ r ∈ opcodeTable, rowMatches r w = false) ∧ s.host.commands = w :: rest :=
  ⟨State.reset.withCommands [0x0200000111#40], _, _, by decide, rfl⟩

theorem witness_words_of_operations : ∃ cap, cap < 2 ^ 32 := ⟨4294967295, by decide⟩

theorem witness_response_word : ∃ r : Response, r.wf = true := ⟨⟨.done, 4294967295⟩, by decide⟩

theorem witness_step_runs : ∃ (s : State) (w : CmdWord) (rest : List CmdWord) (i : Instr),
    s.host.commands = w :: rest ∧ decode w = .ok i :=
  ⟨State.reset.withFetchWord 40 0x0100000000, _, _, _, rfl, rfl⟩

theorem witness_step_stops : ∃ s : State, s.host.commands = [] := ⟨State.reset, rfl⟩

theorem witness_run_of_commands : ∃ ops : List Instr, ops ≠ [] ∧ ∀ i ∈ ops, i.wf = true :=
  ⟨[.encInit, .encByte 0x00#8, .decInit 4294967295], by decide, by decide⟩

theorem witness_no_broken_precondition :
    ∃ (i : Instr) (s : State), ∀ f, ¬ brokenPrecondition i s f :=
  ⟨.encInit, State.reset, fun f => by cases f <;> simp [brokenPrecondition]⟩

theorem witness_broken_overrun : brokenPrecondition .encFinish (openRun 1 0) .encBufferOverrun :=
  ⟨rfl, .inr ⟨rfl, .inr (by decide)⟩⟩

theorem witness_broken_literal : brokenPrecondition (.encByte 0x11#8) (openRun 1 0) .encBufferOverrun :=
  ⟨rfl, .inl ⟨_, rfl, .inl ⟨by decide, by decide⟩⟩⟩

theorem witness_broken_marker :
    brokenPrecondition (.encByte 0x00#8) (encAt 1 [(0, 0x01#8)] 1 2 0x01#8 .active) .encBufferOverrun :=
  ⟨rfl, .inl ⟨_, rfl, .inr ⟨.inl rfl, by decide⟩⟩⟩

theorem witness_broken_not_active : brokenPrecondition .encFinish State.reset .encNotActive :=
  ⟨.inl rfl, .inr rfl⟩

theorem witness_broken_not_ready : brokenPrecondition (.decByte 0x01#8) State.reset .decNotReady :=
  ⟨rfl, _, rfl⟩

theorem witness_broken_capacity : brokenPrecondition (.decInit 5) (State.powerOn ⟨8, 4⟩) .decCapTooLarge :=
  ⟨_, rfl, by decide⟩

theorem witness_enc_byte_literal : ∃ (b : Byte) (s : State), s.enc.ephase = .active ∧ b ≠ 0x00#8 ∧
    s.enc.ecode ≠ 0xFE#8 ∧ s.enc.ecur < s.params.ecap :=
  ⟨0xFF#8, openRun 254 252, rfl, by decide, by decide, by decide⟩

theorem witness_enc_byte_zero : ∃ s : State, s.Inv ∧ s.enc.ephase = .active ∧
    s.enc.emark < s.params.ecap :=
  ⟨openRun 1 0, openRun_inv 1 0 (by decide) (by decide) (by decide), rfl, by decide⟩

theorem witness_enc_byte_full : ∃ (b : Byte) (s : State), s.Inv ∧ s.enc.ephase = .active ∧ b ≠ 0x00#8 ∧
    s.enc.ecode = 0xFE#8 ∧ s.enc.ecur < s.params.ecap :=
  ⟨0x01#8, openRun 255 253, openRun_inv 255 253 (by decide) (by decide) (by decide), rfl, by decide, rfl,
    by decide⟩

theorem witness_finish_completes : ∃ s : State, s.Inv ∧ s.enc.ephase = .active ∧
    s.enc.ecur < s.params.ecap ∧ s.enc.ecode = 0xFE#8 :=
  ⟨openRun 255 253, openRun_inv 255 253 (by decide) (by decide) (by decide), rfl, by decide, rfl⟩

theorem witness_finish_overrun : ∃ s : State, s.Inv ∧ s.enc.ephase = .active ∧
    s.params.ecap ≤ s.enc.ecur :=
  ⟨openRun 254 253, openRun_inv 254 253 (by decide) (by decide) (by decide), rfl, by decide⟩

theorem witness_finish_not_active : ∃ s : State, s.Inv ∧ s.enc.ephase ≠ .active :=
  ⟨State.powerOn ⟨1, 1⟩, ⟨by decide, idle_enc_inv _ _, idle_dec_inv _ _⟩, by decide⟩

theorem witness_not_active_uninit : ∃ s : State, s.enc.ephase = .uninit ∨ s.enc.ephase = .final :=
  ⟨State.reset, .inl rfl⟩

theorem witness_not_active_final : ∃ s : State, s.enc.ephase = .uninit ∨ s.enc.ephase = .final :=
  ⟨encAt 2 [(0, 0x01#8), (1, 0x00#8)] 0 2 0x01#8 .final, .inr rfl⟩

theorem witness_frame_enc_init : ∃ s t, exec .encInit s = .next t := ⟨State.reset, _, rfl⟩

theorem witness_frame_enc_literal : ∃ s t b, b ≠ Config.delim ∧ ¬ closesRun b s.enc ∧
    exec (.encByte b) s = .next t :=
  ⟨openRun 2 0, _, 0x11#8, by decide, by simp only [closesRun]; decide, rfl⟩

theorem witness_frame_enc_zero : ∃ s t, closesRun Config.delim s.enc ∧
    exec (.encByte Config.delim) s = .next t :=
  ⟨openRun 1 0, _, .inl rfl, rfl⟩

theorem witness_frame_enc_full : ∃ s t b, b ≠ Config.delim ∧ closesRun b s.enc ∧
    exec (.encByte b) s = .next t :=
  ⟨encAt 300 [] 0 254 0xFE#8 .active, _, 0x01#8, by decide, .inr rfl, rfl⟩

theorem witness_frame_enc_finish : ∃ s t, exec .encFinish s = .next t := ⟨openRun 2 0, _, rfl⟩

theorem witness_committed_prefix : ∃ (s t u : State) (bs : List Byte) (a : Nat), s.Inv ∧
    s.enc.ephase = .active ∧ runOps (encChunkOps bs) s = .next t ∧ exec .encFinish t = .next u ∧
    a < s.enc.ecur ∧ a ≠ s.enc.emark :=
  ⟨openRun 5 1, _, _, [0x00#8], 1, openRun_inv 5 1 (by decide) (by decide) (by decide), rfl, rfl, rfl,
    by decide, by decide⟩

theorem witness_finished_frame : ∃ s t : State, s.Inv ∧ exec .encFinish s = .next t :=
  ⟨openRun 2 0, _, openRun_inv 2 0 (by decide) (by decide) (by decide), rfl⟩

theorem witness_dec_init_fits : ∃ (cap : Nat) (s : State), cap ≤ s.params.dbufSize :=
  ⟨4, State.powerOn ⟨8, 4⟩, by decide⟩

theorem witness_dec_init_too_large : ∃ (cap : Nat) (s : State), s.params.dbufSize < cap :=
  ⟨5, State.powerOn ⟨8, 4⟩, by decide⟩

theorem witness_dec_not_ready : ∃ s : State, s.dec.dphase = .uninit := ⟨State.reset, rfl⟩

theorem witness_status_malformed : ∃ (b : Byte) (s : State), s.dec.dphase = .ready ∧ s.dec.drem ≠ 0#8 ∧
    b = 0x00#8 :=
  ⟨0x00#8, decAt 4 [] 0 0 0x01#8 false, rfl, by decide, rfl⟩

theorem witness_status_literal_overflow : ∃ (b : Byte) (s : State), s.dec.dphase = .ready ∧
    s.dec.drem ≠ 0#8 ∧ b ≠ 0x00#8 ∧ s.dec.dw = s.dec.dcap :=
  ⟨0xFF#8, decAt 4 [] 0 0 0x01#8 false, rfl, by decide, by decide, rfl⟩

theorem witness_status_literal : ∃ (b : Byte) (s : State), s.dec.dphase = .ready ∧ s.dec.drem ≠ 0#8 ∧
    b ≠ 0x00#8 ∧ s.dec.dw ≠ s.dec.dcap :=
  ⟨0xFF#8, decAt 4 [] 1 0 0xFE#8 true, rfl, by decide, by decide, by decide⟩

theorem witness_status_terminator : ∃ (b : Byte) (s : State), s.dec.dphase = .ready ∧ s.dec.drem = 0#8 ∧
    b = 0x00#8 :=
  ⟨0x00#8, decAt 4 (ones 0 4) 4 4 0x00#8 false, rfl, rfl, rfl⟩

theorem witness_status_owed_overflow : ∃ (b : Byte) (s : State), s.dec.dphase = .ready ∧
    s.dec.drem = 0#8 ∧ b ≠ 0x00#8 ∧ s.dec.dmand = false ∧ s.dec.dw = s.dec.dcap :=
  ⟨0x01#8, decAt 4 [] 0 0 0x00#8 false, rfl, rfl, by decide, rfl, rfl⟩

theorem witness_status_owed : ∃ (b : Byte) (s : State), s.dec.dphase = .ready ∧ s.dec.drem = 0#8 ∧
    b ≠ 0x00#8 ∧ s.dec.dmand = false ∧ s.dec.dw ≠ s.dec.dcap :=
  ⟨0xFF#8, decAt 4 [] 1 0 0x00#8 false, rfl, rfl, by decide, rfl, by decide⟩

theorem witness_status_marker : ∃ (b : Byte) (s : State), s.dec.dphase = .ready ∧ s.dec.drem = 0#8 ∧
    b ≠ 0x00#8 ∧ s.dec.dmand = true :=
  ⟨0xFF#8, fresh 4 0, rfl, rfl, by decide, rfl⟩

theorem witness_overflow : ∃ (b : Byte) (s : State), s.dec.dphase = .ready ∧ b ≠ 0x00#8 ∧
    s.dec.dw = s.dec.dcap ∧ (s.dec.drem ≠ 0#8 ∨ s.dec.dmand = false) :=
  ⟨0x01#8, decAt 4 [] 0 0 0x00#8 false, rfl, by decide, rfl, .inr rfl⟩

theorem witness_frame_dec_init : ∃ s t cap, exec (.decInit cap) s = .next t :=
  ⟨State.powerOn ⟨8, 4⟩, _, 4, rfl⟩

theorem witness_frame_dec_byte : ∃ s t b, exec (.decByte b) s = .next t := ⟨fresh 4 4, _, 0x01#8, rfl⟩

theorem witness_dec_past_capacity : ∃ (b : Byte) (s t : State) (a : Nat), s.Inv ∧
    exec (.decByte b) s = .next t ∧ s.dec.dcap ≤ a :=
  ⟨0x11#8, decAt 4 (ones 0 1) 2 1 0x01#8 false, _, 2,
    decAt_inv 4 2 1 0x01#8 false (by decide) (by decide) (by decide) (by decide), rfl, by decide⟩

theorem witness_reset_equals_init : ∃ (b : Byte) (s t : State), s.Inv ∧ exec (.decByte b) s = .next t ∧
    (responseOf t).status ≠ .processing :=
  ⟨0x00#8, fresh 4 4, _, decAt_inv 4 4 0 0x00#8 true (by decide) (by decide) (by decide) (by decide), rfl,
    by decide⟩

theorem witness_synchronise_boundary : ∃ s : State, s.dec.dphase = .ready ∧ s.dec.drem = 0#8 :=
  ⟨fresh 4 4, rfl, rfl⟩

theorem witness_synchronise_run : ∃ s : State, s.dec.dphase = .ready ∧ s.dec.drem ≠ 0#8 :=
  ⟨decAt 4 [] 4 0 0xFE#8 true, rfl, by decide⟩

theorem witness_step_keeps_invariant : ∃ s t : State, s.Inv ∧ step s = .next t :=
  ⟨(openRun 2 0).withCommands [0x0300000000#40], _,
    withCommands_inv (openRun_inv 2 0 (by decide) (by decide) (by decide)) _, rfl⟩

theorem witness_power_on_parameters : Params.WF ⟨0, 0⟩ ∧ Params.WF Config.largest :=
  ⟨by decide, by decide⟩

theorem witness_power_on_dec_init : ∃ (p : Params) (cap : Nat), cap ≤ p.dbufSize := ⟨⟨8, 4⟩, 4, by decide⟩

theorem witness_power_on_encoder : ∃ (i : Instr) (s t : State), s.enc.ephase = .uninit ∧ exec i s = .next t :=
  ⟨.decInit 4, State.powerOn ⟨8, 4⟩, _, rfl, rfl⟩

theorem witness_power_on_decoder : ∃ (i : Instr) (s t : State), s.dec.dphase = .uninit ∧ exec i s = .next t :=
  ⟨.decInit 4, State.powerOn ⟨8, 4⟩, _, rfl, rfl⟩

theorem witness_share_nothing_encoder : ∃ (i : Instr) (s t : State), exec i s = .next t ∧
    isEncoderOp i = true :=
  ⟨.encFinish, openRun 2 0, _, rfl, rfl⟩

theorem witness_share_nothing_decoder : ∃ (i : Instr) (s t : State), exec i s = .next t ∧
    isEncoderOp i = false :=
  ⟨.decByte 0x02#8, fresh 4 4, _, rfl, rfl⟩

theorem witness_commute : ∃ (i j : Instr) (s t u : State), isEncoderOp i = true ∧ isEncoderOp j = false ∧
    exec i s = .next t ∧ exec j t = .next u :=
  ⟨.encInit, .decByte 0x02#8, fresh 4 4, _, _, rfl, rfl, rfl, rfl⟩

theorem witness_one_response : ∃ (i : Instr) (s t : State), exec i s = .next t ∧ s.Inv :=
  ⟨.encFinish, openRun 255 253, _, rfl, openRun_inv 255 253 (by decide) (by decide) (by decide)⟩

theorem witness_capacity_changes : ∃ (i : Instr) (s t : State), exec i s = .next t ∧
    t.dec.dcap ≠ s.dec.dcap :=
  ⟨.decInit 2, fresh 4 4, _, rfl, by decide⟩

theorem witness_buffers_fault : ∃ (i : Instr) (s : State) (f : Fault), exec i s = .fault f :=
  ⟨.encFinish, openRun 1 0, _, rfl⟩

theorem witness_registers_active : ∃ s : State, s.Inv ∧ s.enc.ephase = .active :=
  ⟨openRun 4294967294 253, openRun_inv _ 253 (by decide) (by decide) (by decide), rfl⟩

theorem witness_host_read_byte : ∃ (sp : Space) (a : Nat) (s : State) (v : Byte), a < spaceSize sp s ∧
    (spaceCells sp s).read a = some v :=
  ⟨.ebuf, 1, openRun 2 1, 0x01#8, by decide, rfl⟩

theorem witness_host_read_no_value : ∃ (sp : Space) (a : Nat) (s : State), a < spaceSize sp s ∧
    (spaceCells sp s).read a = none :=
  ⟨.ebuf, 0, openRun 2 1, by decide, rfl⟩

theorem witness_host_read_no_cell : ∃ (sp : Space) (a : Nat) (s : State), spaceSize sp s ≤ a :=
  ⟨.ebuf, 2, openRun 2 1, by decide⟩

theorem witness_frame_fits : ∃ (b : List Byte) (s : State), encLen b ≤ s.params.ecap :=
  ⟨[], State.powerOn ⟨2, 0⟩, by decide⟩

theorem witness_frame_does_not_fit : ∃ (b : List Byte) (s : State), s.params.ecap < encLen b :=
  ⟨[], State.powerOn ⟨1, 0⟩, by decide⟩

theorem witness_legal_runs : ∃ runs, legalRuns runs = true :=
  ⟨[[0x11#8, 0x22#8], []], by decide⟩

theorem witness_agrees_defined : ∃ (f : List Byte) (s : State) (b : List Byte), frameShaped f = true ∧
    s.dec.dphase = .ready ∧ s.dec.initial ∧ unstuff f = some b ∧ b.length ≤ s.dec.dcap :=
  ⟨[0x02#8, 0x11#8, 0x01#8, 0x00#8], fresh 2 2, [0x11#8, 0x00#8], by decide, rfl, fresh_initial _ _, rfl,
    by decide⟩

theorem witness_agrees_undefined : ∃ (f : List Byte) (s : State), frameShaped f = true ∧
    s.dec.dphase = .ready ∧ s.dec.initial ∧ unstuff f = none ∧ f.length ≤ s.dec.dcap :=
  ⟨[0x02#8, 0x00#8], fresh 2 2, by decide, rfl, fresh_initial _ _, rfl, by decide⟩

theorem witness_round_trip : ∃ (b : List Byte) (s : State), s.dec.dphase = .ready ∧ s.dec.initial ∧
    b.length ≤ s.dec.dcap :=
  ⟨[0x11#8, 0x00#8], fresh 2 2, rfl, fresh_initial _ _, by decide⟩

theorem witness_round_trip_empty : ∃ s : State, s.dec.dphase = .ready ∧ s.dec.initial ∧
    ([] : List Byte).length ≤ s.dec.dcap :=
  ⟨fresh 0 0, rfl, fresh_initial _ _, by decide⟩

theorem witness_overflow_fits : ∃ (b : List Byte) (s : State), s.dec.dphase = .ready ∧ s.dec.initial ∧
    s.dec.dcap < b.length :=
  ⟨[0x11#8], fresh 4 0, rfl, fresh_initial _ _, by decide⟩

theorem witness_feed_incomplete : ∃ (a : List Byte) (s t : State) (r : FeedResult),
    decFeed a s = .next (t, r) ∧ r.status = .incompleteFrame :=
  ⟨[], fresh 4 4, _, _, rfl, rfl⟩

theorem witness_feed_ends : ∃ (a : List Byte) (s t : State) (r : FeedResult),
    decFeed a s = .next (t, r) ∧ r.status ≠ .incompleteFrame :=
  ⟨[0x00#8], fresh 4 4, _, _, rfl, by decide⟩

theorem witness_max_decode_len : ∃ (f : List Byte) (s : State), frameShaped f = true ∧
    s.dec.dphase = .ready ∧ s.dec.initial ∧ maxDecodeLen f.length ≤ s.dec.dcap :=
  ⟨[0x02#8, 0x11#8, 0x00#8], fresh 4 1, by decide, rfl, fresh_initial _ _, by decide⟩

theorem witness_max_encode_len_bounds : ∃ b : List Byte,
    ¬ (1 ≤ b.length ∧ b.length % 254 = 0 ∧ ∀ x ∈ b, x ≠ 0x00#8) :=
  ⟨List.replicate 254 0x00#8, fun h => h.2.2 0x00#8 (List.mem_replicate.2 ⟨by decide, rfl⟩) rfl⟩

theorem witness_max_encode_len_empty :
    ¬ (1 ≤ ([] : List Byte).length ∧ ([] : List Byte).length % 254 = 0 ∧
      ∀ x ∈ ([] : List Byte), x ≠ 0x00#8) := by simp

theorem witness_max_encode_len_short : ∃ b : List Byte, 1 ≤ b.length ∧ b.length % 254 = 0 ∧
    ∀ x ∈ b, x ≠ 0x00#8 := by
  refine ⟨List.replicate 254 0x01#8, ?_, ?_, fun x hx => ?_⟩
  · rw [List.length_replicate]
    decide
  · rw [List.length_replicate]
  · rw [List.eq_of_mem_replicate hx]
    decide

theorem witness_safe_encode_len_non_zero : ∃ b : List Byte, ∀ x ∈ b, x ≠ 0x00#8 :=
  ⟨[0x01#8, 0xFF#8], by decide⟩

theorem witness_safe_encode_len_same : ∃ d : Nat, ¬ 254 ∣ d ∨ d = 0 := ⟨253, .inl (by decide)⟩

theorem witness_safe_encode_len_same_zero : ∃ d : Nat, ¬ 254 ∣ d ∨ d = 0 := ⟨0, .inr rfl⟩

theorem witness_safe_encode_len_above : ∃ d : Nat, 1 ≤ d ∧ 254 ∣ d := ⟨254, by decide, by decide⟩

theorem witness_safe_encode_len_order : ∃ d e : Nat, d ≤ e := ⟨253, 254, by decide⟩

end Sys2Proof.Tests
end

section
/-! SUPPORT. `DCAP` belongs to `DEC_INIT` alone (10_state.md R30): the encoder's operations keep the whole
decoder, and no branch of `DEC_BYTE` loads the capacity. -/

namespace Sys2Proof.Machine

/-- An operation of the encoder instance keeps the decoder instance (10_state.md R43). -/
theorem exec_encoderOp_dec {i : Instr} {s t : State} (hi : isEncoderOp i = true)
    (h : exec i s = .next t) : t.dec = s.dec := by
  cases i with
  | encInit =>
    rw [exec_encInit] at h
    cases h
    rfl
  | encByte b =>
    obtain ⟨e, -, rfl⟩ := (exec_encByte_next b s t).mp h
    rfl
  | encFinish =>
    obtain ⟨e, -, rfl⟩ := (exec_encFinish_next s t).mp h
    rfl
  | decInit cap => cases hi
  | decByte b => cases hi

/-- The automatic reset included (60_exceptions.md R206). -/
@[simp] theorem decoderByte_dcap (b : Byte) (d : Decoder) : (decoderByte b d).1.dcap = d.dcap := by
  obtain ⟨st, v, hreset, -⟩ | ⟨-, -, -, hliteral⟩ | ⟨-, -, -, -, howed⟩ | ⟨-, -, -, hmarker⟩ :=
    decoderByte_cases b d
  · rw [hreset, autoReset_dcap]
  · rw [hliteral, pushDbuf_dcap]
  · rw [howed, loadMarker_dcap, pushDbuf_dcap]
  · rw [hmarker, loadMarker_dcap]

/-- Settles O42, operation by operation: the encoder's three keep the decoder, `DEC_BYTE` keeps `DCAP` in
every branch, and `DEC_INIT` loads its operand. -/
theorem onlyDecInitChangesCapacity : Obligations.OnlyDecInitChangesCapacity := by
  intro i s t h hchanged
  cases i with
  | encInit => exact absurd (congrArg Decoder.dcap (exec_encoderOp_dec rfl h)) hchanged
  | encByte b => exact absurd (congrArg Decoder.dcap (exec_encoderOp_dec rfl h)) hchanged
  | encFinish => exact absurd (congrArg Decoder.dcap (exec_encoderOp_dec rfl h)) hchanged
  | decInit cap =>
    obtain ⟨-, rfl⟩ := (exec_decInit_next cap s t).mp h
    exact ⟨cap, rfl, rfl⟩
  | decByte b =>
    obtain ⟨-, rfl⟩ := (exec_decByte_next b s t).mp h
    exact absurd (decoderByte_dcap b s.dec) hchanged

end Sys2Proof.Machine
end

section
/-! SUPPORT. `ENC_FINISH` (41_encoder.md R103): between operations the reserved cell lies below the cursor
(10_state.md R28), so the free cell at `ECUR` alone decides whether the frame can be terminated. -/

namespace Sys2Proof.Machine

/-- In phase `Active` the reserved cell lies below the cursor (10_state.md R28). -/
theorem Encoder.Inv.emark_lt_ecur {ecap : Nat} {e : Encoder} (h : e.Inv ecap) (ha : e.ephase = .active) :
    e.emark < e.ecur := by
  have hcursor := h.cursor ha
  have hlow := h.codeLow ha
  omega

/-- The encoder after `ENC_FINISH`: the last marker and the terminator written (41_encoder.md R103). -/
def frameTerminated (e : Encoder) : Encoder :=
  { e with ebuf := (e.ebuf.write e.emark e.ecode).write e.ecur Config.delim, ecur := e.ecur + 1,
           ephase := .final }

/-- The last marker stands in the reserved cell: the terminator goes to another one. -/
theorem frameTerminated_read_emark (e : Encoder) (h : e.emark ≠ e.ecur) :
    (frameTerminated e).ebuf.read e.emark = some e.ecode := by
  simp [frameTerminated, h]

theorem frameTerminated_read_ecur (e : Encoder) :
    (frameTerminated e).ebuf.read e.ecur = some Config.delim := by
  simp [frameTerminated]

theorem frameTerminated_read_other (e : Encoder) (a : Nat) (hm : a ≠ e.emark) (hc : a ≠ e.ecur) :
    (frameTerminated e).ebuf.read a = e.ebuf.read a := by
  simp [frameTerminated, hm, hc]

/-- `ENC_FINISH` completes where both cells are inside EBUF (41_encoder.md R103, R111). -/
theorem exec_encFinish_active (s : State) (ha : s.enc.ephase = .active) (hm : s.enc.emark < s.params.ecap)
    (hc : s.enc.ecur < s.params.ecap) :
    exec .encFinish s =
      .next ({ s with enc := frameTerminated s.enc }.respond ⟨.done, s.enc.ecur + 1⟩) :=
  (exec_encFinish_next s _).mpr
    ⟨frameTerminated s.enc, (encoderFinish_ok ..).mpr ⟨ha, hm, hc, rfl⟩, rfl⟩

/-- Settles O16: the reserved cell lies below the cursor, so it is inside EBUF when the cell at the cursor is,
and the terminator does not overwrite the marker. -/
theorem encFinishTerminatesFrame : Obligations.EncFinishTerminatesFrame := by
  intro s hinv
  refine ⟨fun ha hc => ?completes, fun ha hc => ?overrun, fun ha => ?notActive⟩
  case completes =>
    have hlt : s.enc.emark < s.enc.ecur := hinv.enc.emark_lt_ecur ha
    exact ⟨_, exec_encFinish_active s ha (hlt.trans hc) hc, frameTerminated_read_emark s.enc hlt.ne,
      hinv.enc.codeLow ha, hinv.enc.codeHigh ha, frameTerminated_read_ecur s.enc,
      frameTerminated_read_other s.enc, rfl, rfl, rfl, rfl, rfl⟩
  case overrun =>
    exact (exec_encFinish_fault s _).mpr ((encoderFinish_error ..).mpr (.inr ⟨ha, .inr hc, rfl⟩))
  case notActive =>
    exact (exec_encFinish_fault s _).mpr ((encoderFinish_error ..).mpr (.inl ⟨ha, rfl⟩))

end Sys2Proof.Machine
end

section
/-! SUPPORT. Runs one after the other (70_reset_and_hazards.md R247), and the chunks of a payload
(41_encoder.md R104, R115). -/

namespace Sys2Proof.Machine

/-- What follows two operations in a row; a fault or a refusal of either ends the run
(60_exceptions.md R212). -/
theorem onNext_assoc {σ τ υ : Type} (o : Host.Outcome σ Fault Refusal)
    (f : σ → Host.Outcome τ Fault Refusal) (g : τ → Host.Outcome υ Fault Refusal) :
    onNext (onNext o f) g = onNext o fun s => onNext (f s) g := by
  cases o <;> rfl

/-- A run of two lists is the run of the second from where the first ends, faults included. -/
theorem runOps_append (is js : List Instr) (s : State) :
    runOps (is ++ js) s = onNext (runOps is s) (runOps js) := by
  induction is generalizing s with
  | nil => rfl
  | cons i is ih => rw [List.cons_append, runOps, runOps, onNext_assoc, funext ih]

theorem encChunkOps_append (a b : List Byte) : encChunkOps (a ++ b) = encChunkOps a ++ encChunkOps b :=
  List.map_append

/-- The operations of the chunks, in order, are those of their concatenation. -/
theorem flatMap_encChunkOps (chunks : List (List Byte)) :
    chunks.flatMap encChunkOps = encChunkOps chunks.flatten := by
  rw [List.flatMap_def]
  exact List.map_flatten.symm

theorem encChunk_append (a b : List Byte) (s : State) :
    encChunk (a ++ b) s = onNext (encChunk a s) fun r => encChunk b r.1 := by
  simp only [encChunk, encChunkOps_append, runOps_append, onNext_assoc, onNext_next]

/-- Settles O55: the chunks expand to the operations of the whole payload, and a run of two lists is one
run after the other. -/
theorem chunkBoundariesDoNotMatter : Obligations.ChunkBoundariesDoNotMatter :=
  fun chunks s => ⟨by rw [flatMap_encChunkOps], fun a b => encChunk_append a b s⟩

end Sys2Proof.Machine
end

section
/-! SUPPORT. The incremental checksum and the whole-block one (42_crc_engine.md R134, R135). -/

namespace Sys2Proof.Machine

/-- Feeding bytes to the accumulator is the fold of the per-byte update, as the whole-block form runs it. -/
theorem crcFeed_eq_foldl (v : CrcVariant) (crc : BitVec v.width.bits) (bytes : List Byte) :
    crcFeed v crc bytes = bytes.foldl (crcUpdate v) crc := by
  induction bytes generalizing crc with
  | nil => rfl
  | cons b bs ih => rw [crcFeed, ih, List.foldl_cons]

theorem crcFeed_append (v : CrcVariant) (crc : BitVec v.width.bits) (a b : List Byte) :
    crcFeed v crc (a ++ b) = crcFeed v (crcFeed v crc a) b := by
  simp only [crcFeed_eq_foldl, List.foldl_append]

/-- Reading the accumulator after all the bytes gives the whole-block checksum. -/
theorem crcRead_crcFeed_init (v : CrcVariant) (bytes : List Byte) :
    crcRead v (crcFeed v v.init bytes) = crcBlock v bytes := by
  rw [crcRead, crcBlock, crcFeed_eq_foldl]

/-- Settles O60: feeding `a` and then `b` is feeding `a ++ b`, and the final mask is applied only when the
accumulator is read. -/
theorem crcIncrementalEqualsBlock : Obligations.CrcIncrementalEqualsBlock := by
  intro v a b
  rw [← crcFeed_append, crcRead_crcFeed_init]

end Sys2Proof.Machine
end

section
/-! SUPPORT. One `DEC_BYTE` on an initialised decoder (43_decoder.md R152): it always completes, every reset is
the same one (R164), and what it does to DBUF is at most one write at `DW`, made with room left (R168). -/

namespace Sys2Proof.Machine

theorem responseOf_respond (s : State) (r : Response) : responseOf (s.respond r) = r := by
  simp [responseOf]

theorem autoReset_initial (d : Decoder) : (autoReset d).initial := ⟨rfl, rfl, rfl⟩

/-- Every reset is the one `DEC_INIT DCAP` makes (43_decoder.md R164). -/
theorem decoderInit_dcap (d : Decoder) (hp : d.dphase = .ready) : decoderInit d.dcap d = autoReset d := by
  simp only [decoderInit, autoReset, ← hp]

/-- On an initialised decoder `DEC_BYTE` completes, with the decoder and the response of `decoderByte`. -/
theorem exec_decByte_ready {b : Byte} {s : State} {r : Decoder × Response} (hp : s.dec.dphase = .ready)
    (hr : decoderByte b s.dec = r) :
    exec (.decByte b) s = .next ({ s with dec := r.1 }.respond r.2) :=
  (exec_decByte_next b s _).mpr ⟨hp, by rw [hr]⟩

/-- A `DEC_BYTE` that resets keeps DBUF, `DCAP` and `DPHASE` (60_exceptions.md R206). -/
theorem exec_decByte_reset {b : Byte} {s : State} {r : Response} (hp : s.dec.dphase = .ready)
    (hr : decoderByte b s.dec = (autoReset s.dec, r)) :
    ∃ t, exec (.decByte b) s = .next t ∧ t.dec.dbuf = s.dec.dbuf ∧ t.dec.initial ∧
      t.dec.dcap = s.dec.dcap ∧ t.dec.dphase = .ready ∧ t.host.responses = s.host.responses ++ [r] :=
  ⟨_, exec_decByte_ready hp hr, rfl, autoReset_initial _, rfl, hp, rfl⟩

/-- A status other than `Processing` is a reset (43_decoder.md R162, R164). -/
theorem decoderByte_eq_autoReset {b : Byte} {d : Decoder} (h : (decoderByte b d).2.status ≠ .processing) :
    (decoderByte b d).1 = autoReset d := by
  obtain ⟨st, v, hreset, -⟩ | ⟨-, -, -, hliteral⟩ | ⟨-, -, -, -, howed⟩ | ⟨-, -, -, hmarker⟩ :=
    decoderByte_cases b d
  · rw [hreset]
  · exact absurd (by rw [hliteral]) h
  · exact absurd (by rw [howed]) h
  · exact absurd (by rw [hmarker]) h

/-- `IncompleteFrame` belongs to the pseudo-operations (43_decoder.md R160). -/
theorem decoderByte_status_ne_incompleteFrame (b : Byte) (d : Decoder) :
    (decoderByte b d).2.status ≠ .incompleteFrame := by
  obtain ⟨st, v, hreset, -, hst⟩ | ⟨-, -, -, hliteral⟩ | ⟨-, -, -, -, howed⟩ | ⟨-, -, -, hmarker⟩ :=
    decoderByte_cases b d
  · obtain ⟨rfl, -⟩ | ⟨rfl | rfl, -⟩ := hst <;> simp [hreset]
  · simp [hliteral]
  · simp [howed]
  · simp [hmarker]

/-- What `DEC_BYTE` does to DBUF: no write, the cursor reset or kept, or one write at `DW`, made only with room
left. -/
theorem decoderByte_dbuf (b : Byte) (d : Decoder) :
    ((decoderByte b d).1.dbuf = d.dbuf ∧ (decoderByte b d).1.dw ≤ d.dw) ∨
    (d.dw ≠ d.dcap ∧ (decoderByte b d).1.dw = d.dw + 1 ∧
      ∃ v, (decoderByte b d).1.dbuf = d.dbuf.write d.dw v) := by
  obtain ⟨st, v, hreset, -⟩ | ⟨-, -, hroom, hliteral⟩ | ⟨-, -, -, hroom, howed⟩ | ⟨-, -, -, hmarker⟩ :=
    decoderByte_cases b d
  · exact .inl (by simp [hreset])
  · exact .inr ⟨hroom, by simp [hliteral], b, by simp [hliteral]⟩
  · exact .inr ⟨hroom, by simp [howed], Config.delim, by simp [howed]⟩
  · exact .inl (by simp [hmarker])

/-- Settles O24, row by row of the table of 43_decoder.md R162, each by the branch of `DEC_BYTE` it names. -/
theorem decByteStatusTable : Obligations.DecByteStatusTable := by
  intro b s hp
  refine ⟨_, _, exec_decByte_ready hp rfl, rfl, decoderByte_status_ne_incompleteFrame b s.dec,
    fun hr hb => ?malformed, fun hr hb hf => ?overflowLiteral, fun hr hb hf => ?literal,
    fun hr hb => ?terminator, fun hr hb ho hf => ?overflowDelimiter, fun hr hb ho hf => ?delimiterMarker,
    fun hr hb ho => ?marker⟩
  case malformed =>
    obtain rfl : b = Config.delim := hb
    rw [decoderByte_malformed _ hr]
    exact ⟨rfl, autoReset_initial _⟩
  case overflowLiteral =>
    rw [decoderByte_overflowLiteral _ _ hr hb hf]
    exact ⟨rfl, autoReset_initial _⟩
  case literal =>
    rw [decoderByte_literal _ _ hr hb hf]
    exact ⟨rfl, rfl⟩
  case terminator =>
    obtain rfl : b = Config.delim := hb
    rw [decoderByte_terminator _ hr]
    exact ⟨rfl, autoReset_initial _⟩
  case overflowDelimiter =>
    rw [decoderByte_overflowDelimiter _ _ hr hb ho hf]
    exact ⟨rfl, autoReset_initial _⟩
  case delimiterMarker =>
    rw [decoderByte_delimiterMarker _ _ hr hb ho hf]
    exact ⟨rfl, rfl, rfl, beq_iff_eq⟩
  case marker =>
    rw [decoderByte_marker _ _ hr hb ho]
    exact ⟨rfl, rfl, rfl, beq_iff_eq⟩

/-- Settles O32: the one write is at `DW`, below `DCAP` by the invariant and the room test. -/
theorem decoderNeverWritesPastCapacity : Obligations.DecoderNeverWritesPastCapacity := by
  intro b s t hinv h
  obtain ⟨-, rfl⟩ := (exec_decByte_next b s t).mp h
  have hcur : s.dec.dw ≤ s.dec.dcap := hinv.dec.cursor
  simp only [State.respond_dec, decoderByte_dcap]
  obtain ⟨hbuf, hdw⟩ | ⟨hroom, hdw, v, hbuf⟩ := decoderByte_dbuf b s.dec
  · exact ⟨hdw.trans hcur, fun a _ => by rw [hbuf]⟩
  · have hlt : s.dec.dw < s.dec.dcap := lt_of_le_of_ne hcur hroom
    refine ⟨by omega, fun a ha => ?_⟩
    rw [hbuf, Memory.read_write, if_neg (hlt.trans_le ha).ne']

/-- Settles O33: such a byte leaves `AutoReset`, and `DEC_INIT DCAP` completes since `DCAP <= DBUF_SIZE`. -/
theorem resetEqualsDecInit : Obligations.ResetEqualsDecInit := by
  intro b s t hinv h hst
  obtain ⟨hp, rfl⟩ := (exec_decByte_next b s t).mp h
  rw [responseOf_respond] at hst
  refine ⟨_, (exec_decInit_next _ s _).mpr ⟨hinv.dec.capRange, rfl⟩, ?_⟩
  simp only [State.respond_dec]
  rw [decoderInit_dcap _ hp, decoderByte_eq_autoReset hst]

/-- Settles O25: the run counter is not 0, so counting down does not wrap. -/
theorem decByteWritesLiteral : Obligations.DecByteWritesLiteral := by
  intro b s hp hr hb hf
  refine ⟨_, exec_decByte_ready hp (decoderByte_literal b s.dec hr hb hf), by simp, fun a ha => by simp [ha],
    rfl, ?_, rfl, rfl, hp, rfl⟩
  show (s.dec.drem - 1#8).toNat = _
  bv_omega

/-- Settles O26: a 0x00 in a run resets before the room test is made. -/
theorem decByteMalformed : Obligations.DecByteMalformed :=
  fun s hp hr => exec_decByte_reset hp (decoderByte_malformed s.dec hr)

/-- Settles O28: a 0x00 in a marker position resets before an owed delimiter is looked at. -/
theorem decByteTerminator : Obligations.DecByteTerminator :=
  fun s hp hr => exec_decByte_reset hp (decoderByte_terminator s.dec hr)

end Sys2Proof.Machine
end

section
/-! SUPPORT. A frame fed to the decoder byte by byte (43_decoder.md R160, R167): what the rest of a frame decodes
to from a decoder inside a run or at a marker, built up from the terminator backwards. -/

namespace Sys2Proof.Machine

/-- Feeding `f` ends at its last byte with `FrameAvailable`, `b` standing in DBUF from `DW` on and the cells
below `DW` as they were. -/
def Delivers (f b : List Byte) (s : State) : Prop :=
  ∃ t, decFeed f s = .next (t, ⟨.frameAvailable, s.dec.dw + b.length, f.length⟩) ∧
    t.dec.dbuf.holdsFrom s.dec.dw b ∧ ∀ a, a < s.dec.dw → t.dec.dbuf.read a = s.dec.dbuf.read a

/-- The rest `f` of a frame gives the rest `b` of a payload, from every decoder with `n` literals of the run to
come, the flag `mand`, and room for `b`. -/
def DecodesTo (n : Nat) (mand : Bool) (f b : List Byte) : Prop :=
  ∀ s : State, s.dec.dphase = .ready → s.dec.drem.toNat = n → s.dec.dmand = mand →
    s.dec.dw + b.length ≤ s.dec.dcap → Delivers f b s

/-- What is written before the next marker (43_decoder.md R155). -/
def owedBytes (mand : Bool) : List Byte := if mand then [] else [Config.delim]

section
variable {c v : Byte} {f b : List Byte} {s : State} {d : Decoder}

/-- A byte answered `Processing` is followed by the rest of the feed (43_decoder.md R160). -/
theorem decFeed_cons_processing (hp : s.dec.dphase = .ready)
    (hd : decoderByte c s.dec = (d, ⟨.processing, 0⟩)) :
    decFeed (c :: f) s = onNext (decFeed f ({ s with dec := d }.respond ⟨.processing, 0⟩)) fun r =>
      .next (r.1, r.2.afterOneMore) := by
  simp [decFeed, exec_decByte_ready hp hd, responseOf_respond]

/-- A byte answered anything else ends the feed (43_decoder.md R160). -/
theorem decFeed_cons_ended {r : Response} (hp : s.dec.dphase = .ready) (hd : decoderByte c s.dec = (d, r))
    (hr : r.status ≠ .processing) :
    decFeed (c :: f) s = .next ({ s with dec := d }.respond r, ⟨r.status, r.value, 1⟩) := by
  simp [decFeed, exec_decByte_ready hp hd, responseOf_respond, hr]

/-- A byte that writes nothing leaves the rest of the payload to the rest of the frame. -/
theorem Delivers.cons_unwritten (hp : s.dec.dphase = .ready)
    (hd : decoderByte c s.dec = (d, ⟨.processing, 0⟩)) (hbuf : d.dbuf = s.dec.dbuf) (hdw : d.dw = s.dec.dw)
    (h : Delivers f b ({ s with dec := d }.respond ⟨.processing, 0⟩)) : Delivers (c :: f) b s := by
  obtain ⟨t, hfeed, hholds, hbelow⟩ := h
  simp only [State.respond_dec, hbuf, hdw] at hfeed hholds hbelow
  exact ⟨t, by simp [decFeed_cons_processing hp hd, hfeed, FeedResult.afterOneMore], hholds, hbelow⟩

/-- A byte that writes `v` puts it before the payload of the rest of the frame, which does not touch it again. -/
theorem Delivers.cons_written (hp : s.dec.dphase = .ready)
    (hd : decoderByte c s.dec = (d, ⟨.processing, 0⟩)) (hbuf : d.dbuf = s.dec.dbuf.write s.dec.dw v)
    (hdw : d.dw = s.dec.dw + 1) (h : Delivers f b ({ s with dec := d }.respond ⟨.processing, 0⟩)) :
    Delivers (c :: f) (v :: b) s := by
  obtain ⟨t, hfeed, hholds, hbelow⟩ := h
  simp only [State.respond_dec, hbuf, hdw, Memory.read_write] at hfeed hholds hbelow
  refine ⟨t, ?_, ⟨?_, hholds⟩, fun a ha => ?_⟩
  · simp [decFeed_cons_processing hp hd, hfeed, FeedResult.afterOneMore]
    omega
  · rw [hbelow _ (Nat.lt_succ_self _), if_pos rfl]
  · rw [hbelow a (by omega), if_neg ha.ne]

end

/-- The terminator alone stands for no further payload, owed delimiter or not (43_decoder.md R154). -/
theorem decodesTo_terminator (mand : Bool) : DecodesTo 0 mand [Config.delim] [] := by
  intro s hp hn _ _
  have hd := decoderByte_terminator s.dec (BitVec.eq_of_toNat_eq hn)
  exact ⟨_, decFeed_cons_ended hp hd (by simp), trivial, fun a _ => rfl⟩

/-- A literal stands for itself (43_decoder.md R158). -/
theorem decodesTo_literal {n : Nat} {mand : Bool} {f b : List Byte} {x : Byte} (hx : x ≠ Config.delim)
    (h : DecodesTo n mand f b) : DecodesTo (n + 1) mand (x :: f) (x :: b) := by
  intro s hp hn hm hroom
  rw [List.length_cons] at hroom
  have hd := decoderByte_literal x s.dec (by bv_omega) hx (by omega)
  refine .cons_written hp hd rfl rfl (h _ hp ?_ hm ?_)
  · show (s.dec.drem - 1#8).toNat = n
    bv_omega
  · show s.dec.dw + 1 + b.length ≤ s.dec.dcap
    omega

/-- The literals of a run stand for themselves. -/
theorem decodesTo_literals {mand : Bool} {f b q : List Byte} (hq : nonZero q) (h : DecodesTo 0 mand f b) :
    DecodesTo q.length mand (q ++ f) (q ++ b) := by
  induction q with
  | nil => exact h
  | cons x q ih =>
    obtain ⟨hx, hq⟩ := List.forall_mem_cons.mp hq
    exact decodesTo_literal hx (ih hq)

/-- A marker stands for the delimiter owed before it, if any (43_decoder.md R153, R155). -/
theorem decodesTo_marker {m : Byte} {f b : List Byte} (hm : m ≠ Config.delim)
    (h : DecodesTo (m.toNat - 1) (m == Config.codeFull) f b) (mand : Bool) :
    DecodesTo 0 mand (m :: f) (owedBytes mand ++ b) := by
  intro s hp hn hmand hroom
  have hr : s.dec.drem = 0#8 := BitVec.eq_of_toNat_eq hn
  have hload : (m - 1#8).toNat = m.toNat - 1 := by
    have : m ≠ 0#8 := hm
    bv_omega
  cases mand with
  | true => exact .cons_unwritten hp (decoderByte_marker m s.dec hr hm hmand) rfl rfl (h _ hp hload rfl hroom)
  | false =>
    have hroom : s.dec.dw + (b.length + 1) ≤ s.dec.dcap := hroom
    have hd := decoderByte_delimiterMarker m s.dec hr hm hmand (by omega)
    refine .cons_written hp hd rfl rfl (h _ hp hload rfl ?_)
    show s.dec.dw + 1 + b.length ≤ s.dec.dcap
    omega

/-- A run stands for the delimiter owed before it, if any, and its literals; only a full run leaves no delimiter
owed after it (30_encoding.md R72). -/
theorem decodesTo_runBytes {f b q : List Byte} (hq : nonZero q) (hl : q.length ≤ Config.runCap)
    (h : DecodesTo 0 (q.length == Config.runCap) f b) (mand : Bool) :
    DecodesTo 0 mand (runBytes q ++ f) (owedBytes mand ++ (q ++ b)) := by
  have hm : (BitVec.ofNat 8 (q.length + 1)).toNat = q.length + 1 := by
    rw [BitVec.toNat_ofNat]
    exact Nat.mod_eq_of_lt (Nat.succ_lt_succ (hl.trans_lt (by decide)))
  have hfull : (BitVec.ofNat 8 (q.length + 1) == Config.codeFull) = (q.length == Config.runCap) := by
    rw [Bool.eq_iff_iff, beq_iff_eq, beq_iff_eq, ← BitVec.toNat_inj, hm]
    exact Nat.succ_inj
  refine decodesTo_marker (fun h0 => ?_) ?_ mand
  · rw [h0] at hm
    exact absurd hm (Nat.succ_ne_zero _).symm
  · rw [hm, hfull]
    exact decodesTo_literals hq h

/-- `Stuff(b)` stands for `b`, behind the delimiter owed before it, if any. -/
theorem decodesTo_stuff (b : List Byte) (mand : Bool) : DecodesTo 0 mand (stuff b) (owedBytes mand ++ b) := by
  induction b using payload_induction generalizing mand with
  | last q hq hl =>
    rw [stuff_last q hq hl]
    simpa using decodesTo_runBytes hq hl.le (decodesTo_terminator _) mand
  | zero q bs hq hl ih =>
    rw [stuff_zero q bs hq hl]
    refine decodesTo_runBytes hq hl.le ?_ mand
    rw [beq_false_of_ne hl.ne]
    exact ih false
  | full q bs hq hl ih =>
    have hrun : runBytes q = Config.codeFull :: q := by
      rw [runBytes, hl]
      rfl
    rw [stuff_full q bs hq hl, ← List.cons_append, ← hrun]
    refine decodesTo_runBytes hq hl.le ?_ mand
    rw [hl]
    exact ih true

/-- Settles O53: in the initial state no literal is to come, no delimiter is owed, and `DW` is 0. -/
theorem roundTrip : Obligations.RoundTrip := by
  intro b s hp hinit hcap
  obtain ⟨hdw, hrem, hmand⟩ := hinit
  obtain ⟨t, hfeed, hholds, -⟩ :=
    decodesTo_stuff b true s hp (by rw [hrem]; rfl) hmand (by rw [hdw, Nat.zero_add]; exact hcap)
  rw [hdw] at hfeed hholds
  exact ⟨t, by simpa [owedBytes] using hfeed, hholds⟩

end Sys2Proof.Machine
end

section
/-! SUPPORT. Command words and the opcode table (30_encoding.md R81 to R83): a word is its two fields, so matching
a row of the table is a condition on each field, the one `decode` tests. -/

namespace Sys2Proof

/-- The number a command word is: its code in front of its operand (30_encoding.md R81). -/
theorem cmdOf_toNat (op : BitVec 8) (arg : BitVec 32) :
    (cmdOf op arg).toNat = op.toNat * 2 ^ 32 + arg.toNat := by
  have hop := op.isLt
  have hlt : op.toNat * 2 ^ 32 < 2 ^ 40 := by omega
  rw [cmdOf, BitVec.toNat_or, BitVec.toNat_shiftLeft, BitVec.toNat_setWidth_of_le (by decide),
    BitVec.toNat_setWidth_of_le (by decide), Nat.shiftLeft_eq, Nat.mod_eq_of_lt hlt, ← Nat.shiftLeft_eq,
    Nat.shiftLeft_add_eq_or_of_lt arg.isLt]

/-- Two command words with the same fields are the same word. -/
theorem cmdWord_eq_iff (v w : CmdWord) : v = w ↔ cmdOp v = cmdOp w ∧ cmdArg v = cmdArg w :=
  ⟨fun h => by simp [h], fun ⟨hop, harg⟩ => by rw [← cmdOf_fields v, hop, harg, cmdOf_fields]⟩

/-- A row is matched field by field. -/
theorem rowMatches_iff (r : OpcodeRow) (w : CmdWord) :
    rowMatches r w = true ↔
      cmdOp w &&& cmdOp r.mask = cmdOp r.pattern ∧ cmdArg w &&& cmdArg r.mask = cmdArg r.pattern := by
  rw [rowMatches, beq_iff_eq, cmdWord_eq_iff]
  simp only [cmdOp, cmdArg, BitVec.extractLsb'_and]

/-- The operand mask of a byte operand's row leaves the bits that must be zero (30_encoding.md R82). -/
theorem argHigh_eq_zero_of_masked {a : BitVec 32} (h : a &&& 0xFFFFFF00#32 = 0#32) : argHigh a = 0#24 := by
  have hhigh := congrArg argHigh h
  simp only [argHigh, BitVec.extractLsb'_and] at hhigh ⊢
  rwa [show (0xFFFFFF00#32).extractLsb' 8 24 = BitVec.allOnes 24 by decide, BitVec.and_allOnes] at hhigh

/-- The condition a row of the table puts on a word, as `decode` tests it: the code and the bits of the operand
that must be zero (30_encoding.md R82, R83). -/
theorem fields_of_rowMatches {r : OpcodeRow} {w : CmdWord} (hr : r ∈ opcodeTable) (h : rowMatches r w = true) :
    (r.mnemonic = "ENC_INIT" ∧ cmdOp w = 0x01 ∧ cmdArg w = 0) ∨
    (r.mnemonic = "ENC_BYTE" ∧ cmdOp w = 0x02 ∧ argHigh (cmdArg w) = 0) ∨
    (r.mnemonic = "ENC_FINISH" ∧ cmdOp w = 0x03 ∧ cmdArg w = 0) ∨
    (r.mnemonic = "DEC_INIT" ∧ cmdOp w = 0x11) ∨
    (r.mnemonic = "DEC_BYTE" ∧ cmdOp w = 0x12 ∧ argHigh (cmdArg w) = 0) := by
  have masked : ∀ {op : BitVec 8}, cmdOp w &&& 0xFF#8 = op → cmdOp w = op := fun h =>
    BitVec.and_allOnes.symm.trans h
  have whole : cmdArg w &&& 0xFFFFFFFF#32 = 0#32 → cmdArg w = 0 := fun h => BitVec.and_allOnes.symm.trans h
  obtain ⟨hop, harg⟩ := (rowMatches_iff r w).mp h
  simp only [opcodeTable, List.mem_cons, List.not_mem_nil, or_false] at hr
  obtain rfl | rfl | rfl | rfl | rfl := hr
  · exact .inl ⟨rfl, masked hop, whole harg⟩
  · exact .inr (.inl ⟨rfl, masked hop, argHigh_eq_zero_of_masked harg⟩)
  · exact .inr (.inr (.inl ⟨rfl, masked hop, whole harg⟩))
  · exact .inr (.inr (.inr (.inl ⟨rfl, masked hop⟩)))
  · exact .inr (.inr (.inr (.inr ⟨rfl, masked hop, argHigh_eq_zero_of_masked harg⟩)))

/-- An operation's command word matches a row of the table. -/
theorem exists_rowMatches_encode {i : Instr} (h : i.wf = true) :
    ∃ r ∈ opcodeTable, rowMatches r (encode i) = true := by
  have row : Laws.OpcodeRow.Statement i := by
    cases i with
    | encInit => exact Laws.OpcodeRow.encInit
    | encByte b => exact Laws.OpcodeRow.encByte b
    | encFinish => exact Laws.OpcodeRow.encFinish
    | decInit cap => exact Laws.OpcodeRow.decInit cap
    | decByte b => exact Laws.OpcodeRow.decByte b
  obtain ⟨r, hr, -, hm⟩ := row h
  exact ⟨r, hr, hm⟩

/-- Settles O1, operation by operation: `decode` reads the code and the operand field `encode` put there. -/
theorem decodeOfEncode : Obligations.DecodeOfEncode := by
  intro i hwf
  cases i with
  | encInit => simp [decode, encode, opOf, argOf]
  | encByte b => simp [decode, encode, opOf, argOf]
  | encFinish => simp [decode, encode, opOf, argOf]
  | decInit cap =>
    have hcap : cap < 2 ^ 32 := of_decide_eq_true hwf
    simpa [decode, encode, opOf, argOf] using hcap
  | decByte b => simp [decode, encode, opOf, argOf]

/-- Settles O2: in each branch of `decode` that answers an operation, the code and the operand field it tested are
those of the operation's word. -/
theorem encodeOfDecode : Obligations.EncodeOfDecode := by
  intro w i h
  have fields : ∀ {i : Instr}, cmdOp w = opOf i → cmdArg w = argOf i → encode i = w := fun hop harg => by
    rw [encode, ← hop, ← harg, cmdOf_fields]
  unfold decode at h
  split_ifs at h with hop harg hop hhigh hop harg hop hop hhigh <;> obtain rfl := Except.ok.inj h
  · exact ⟨rfl, fields hop harg⟩
  · exact ⟨rfl, fields hop (argByte_of_argHigh _ hhigh).symm⟩
  · exact ⟨rfl, fields hop harg⟩
  · exact ⟨decide_eq_true (cmdArg w).isLt, fields hop ((BitVec.ofNat_toNat ..).trans (BitVec.setWidth_eq _)).symm⟩
  · exact ⟨rfl, fields hop (argByte_of_argHigh _ hhigh).symm⟩

/-- Settles O3, row by row: the condition of the row is the one the branch of `decode` for its code tests. -/
theorem matchedWordIsItsRow : Obligations.MatchedWordIsItsRow := by
  intro r hr w hm
  obtain ⟨hname, hop, harg⟩ | ⟨hname, hop, hhigh⟩ | ⟨hname, hop, harg⟩ | ⟨hname, hop⟩ | ⟨hname, hop, hhigh⟩ :=
    fields_of_rowMatches hr hm
  · exact ⟨.encInit, by simp [decode, hop, harg], hname.symm⟩
  · exact ⟨.encByte (argByte (cmdArg w)), by simp [decode, hop, hhigh], hname.symm⟩
  · exact ⟨.encFinish, by simp [decode, hop, harg], hname.symm⟩
  · exact ⟨.decInit (cmdArg w).toNat, by simp [decode, hop], hname.symm⟩
  · exact ⟨.decByte (argByte (cmdArg w)), by simp [decode, hop, hhigh], hname.symm⟩

/-- Settles O5: the code of each operation is its row's, and the operand stands below it. -/
theorem wordsOfOperations : Obligations.WordsOfOperations := by
  refine ⟨rfl, fun b => ?_, rfl, fun cap hcap => ?_, fun b => ?_⟩
  · rw [encode, cmdOf_toNat, opOf, argOf, BitVec.toNat_setWidth_of_le (by decide)]
    rfl
  · rw [encode, cmdOf_toNat, opOf, argOf, BitVec.toNat_ofNat, Nat.mod_eq_of_lt hcap]
    rfl
  · rw [encode, cmdOf_toNat, opOf, argOf, BitVec.toNat_setWidth_of_le (by decide)]
    rfl

/-- Settles O6: the table's words are literals, so `decode` is evaluated on each. -/
theorem sampleWordsDecode : Obligations.SampleWordsDecode :=
  ⟨rfl, rfl, rfl, rfl, rfl, rfl, rfl, rfl, rfl, rfl, rfl, rfl⟩

/-- A response word has the format of a command word, its status code in the place of the operation code
(30_encoding.md R84). -/
theorem encodeResponse_eq_cmdOf (r : Response) :
    encodeResponse r = cmdOf ((statusCode r.status).setWidth 8) (BitVec.ofNat 32 r.value) := by
  rw [encodeResponse, cmdOf, BitVec.setWidth_setWidth (by decide)]

/-- Bits of a word's code field are bits of the word. -/
theorem extractLsb'_cmdOp (w : CmdWord) (start len : Nat) (h : start + len ≤ 8) :
    (cmdOp w).extractLsb' start len = w.extractLsb' (32 + start) len := by
  refine BitVec.eq_of_getLsbD_eq fun i hi => ?_
  simp [cmdOp, show start + i < 8 by omega, Nat.add_assoc]

theorem statusOfCode_statusCode (st : Status) : statusOfCode (statusCode st) = some st := by
  cases st <;> rfl

/-- Settles O7: the two fields are those of the command word format, and a status code has three bits. -/
theorem responseWordFields : Obligations.ResponseWordFields := by
  intro r hwf
  have hvalue : r.value < 2 ^ 32 := of_decide_eq_true hwf
  have hop := cmdOp_cmdOf ((statusCode r.status).setWidth 8) (BitVec.ofNat 32 r.value)
  have harg := cmdArg_cmdOf ((statusCode r.status).setWidth 8) (BitVec.ofNat 32 r.value)
  rw [← encodeResponse_eq_cmdOf] at hop harg
  have hreserved : (encodeResponse r).extractLsb' 35 5 = 0#5 := by
    rw [← extractLsb'_cmdOp _ 3 5 (by decide), hop]
    cases r.status <;> rfl
  have hstatus : (encodeResponse r).extractLsb' 32 3 = statusCode r.status := by
    rw [← extractLsb'_cmdOp _ 0 3 (by decide), hop]
    cases r.status <;> rfl
  have hlow : ((encodeResponse r).extractLsb' 0 32).toNat = r.value := by
    rw [← cmdArg, harg, BitVec.toNat_ofNat, Nat.mod_eq_of_lt hvalue]
  refine ⟨hreserved, hstatus, hlow, ?_⟩
  simp [decodeResponse, hreserved, hstatus, hlow, statusOfCode_statusCode]

end Sys2Proof
end

section
/-! SUPPORT. `ENC_BYTE` (41_encoder.md R102): when it completes and what it gives, with the cells and registers of
each of its three forms. -/

namespace Sys2Proof.Machine

/-- The encoder after `CloseRun` (41_encoder.md R106). -/
def runClosed (e : Encoder) : Encoder :=
  { ebuf := (e.ebuf.write e.emark e.ecode).erase e.ecur, emark := e.ecur, ecur := e.ecur + 1, ecode := 1#8,
    ephase := e.ephase }

/-- The encoder after `ENC_BYTE b` (41_encoder.md R102, R107). -/
def byteTaken (b : Byte) (e : Encoder) : Encoder :=
  if b = Config.delim then runClosed e
  else if e.ecode + 1#8 = Config.codeFull then runClosed (literalCopied b e)
  else literalCopied b e

section
variable (b : Byte) (e : Encoder) (a : Nat)

theorem literalCopied_read :
    (literalCopied b e).ebuf.read a = if a = e.ecur then some b else e.ebuf.read a :=
  Memory.read_write ..

theorem runClosed_read : (runClosed e).ebuf.read a =
    if a = e.ecur then none else if a = e.emark then some e.ecode else e.ebuf.read a := by
  simp only [runClosed, Memory.read_erase, Memory.read_write]

/-- The cells after the literal that makes a run full: the new marker's, the closed one's and its own
(41_encoder.md R107). -/
theorem runClosed_literalCopied_read : (runClosed (literalCopied b e)).ebuf.read a =
    if a = e.ecur + 1 then none else if a = e.emark then some (e.ecode + 1#8)
    else if a = e.ecur then some b else e.ebuf.read a := by
  rw [runClosed_read, literalCopied_read]
  rfl

theorem byteTaken_zero : byteTaken Config.delim e = runClosed e := if_pos rfl

theorem byteTaken_full (hb : b ≠ Config.delim) (hf : e.ecode + 1#8 = Config.codeFull) :
    byteTaken b e = runClosed (literalCopied b e) := by
  rw [byteTaken, if_neg hb, if_pos hf]

theorem byteTaken_literal (h : ¬ closesRun b e) : byteTaken b e = literalCopied b e := by
  obtain ⟨hb, hf⟩ := not_or.mp h
  rw [byteTaken, if_neg hb, if_neg hf]

/-- The three forms of `ENC_BYTE`, by the byte and the length of the run. -/
theorem byteTaken_cases :
    (b = Config.delim ∧ byteTaken b e = runClosed e) ∨
    (b ≠ Config.delim ∧ closesRun b e ∧ byteTaken b e = runClosed (literalCopied b e)) ∨
    (b ≠ Config.delim ∧ ¬ closesRun b e ∧ byteTaken b e = literalCopied b e) := by
  by_cases hb : b = Config.delim
  · subst hb
    exact .inl ⟨rfl, byteTaken_zero e⟩
  · by_cases hf : e.ecode + 1#8 = Config.codeFull
    · exact .inr (.inl ⟨hb, .inr hf, byteTaken_full b e hb hf⟩)
    · have h : ¬ closesRun b e := not_or.mpr ⟨hb, hf⟩
      exact .inr (.inr ⟨hb, h, byteTaken_literal b e h⟩)

end

/-- When `ENC_BYTE b` completes, and what it gives: a literal needs the cell at `ECUR`, a closed run the cell at
`EMARK` (41_encoder.md R102, R111). -/
theorem encoderByte_ok (ecap : Nat) (b : Byte) (e e' : Encoder) :
    encoderByte ecap b e = .ok e' ↔ e.ephase = .active ∧ (b ≠ Config.delim → e.ecur < ecap) ∧
      (closesRun b e → e.emark < ecap) ∧ e' = byteTaken b e := by
  by_cases ha : e.ephase = .active
  · by_cases hb : b = Config.delim
    · subst hb
      simp only [encoderByte_zero _ _ ha, closeRun_ok, ha, closesRun, byteTaken, runClosed, ne_eq,
        not_true_eq_false, false_implies, true_or, true_implies, true_and, if_true]
    · rcases Nat.lt_or_ge e.ecur ecap with hc | hc
      · rw [encoderByte_literal _ _ _ ha hb hc]
        split_ifs with hf
        · simp only [closeRun_ok, ha, hb, hc, hf, closesRun, byteTaken, runClosed, literalCopied, ne_eq,
            not_false_eq_true, true_implies, or_true, true_and, if_true, if_false]
        · simp [ha, hb, hc, hf, closesRun, byteTaken, eq_comm]
      · simp [encoderByte_overrun _ _ _ ha hb hc, hb, hc.not_gt]
  · simp [encoderByte_notActive _ _ _ ha, ha]

/-- When `ENC_BYTE b` faults (41_encoder.md R111, R119). -/
theorem encoderByte_error (ecap : Nat) (b : Byte) (e : Encoder) (f : Fault) :
    encoderByte ecap b e = .error f ↔
      (e.ephase ≠ .active ∧ f = .encNotActive) ∨
      (e.ephase = .active ∧ ((b ≠ Config.delim ∧ ecap ≤ e.ecur) ∨ (closesRun b e ∧ ecap ≤ e.emark)) ∧
        f = .encBufferOverrun) := by
  by_cases ha : e.ephase = .active
  · by_cases hb : b = Config.delim
    · subst hb
      simp [encoderByte_zero _ _ ha, closeRun_error, ha, closesRun]
    · rcases Nat.lt_or_ge e.ecur ecap with hc | hc
      · rw [encoderByte_literal _ _ _ ha hb hc]
        split_ifs with hf
        · simp [closeRun_error, ha, hb, hc, hf, closesRun, literalCopied]
        · simp [ha, hb, hc, hf, closesRun]
      · simp [encoderByte_overrun _ _ _ ha hb hc, ha, hb, hc, eq_comm]
  · simp [encoderByte_notActive _ _ _ ha, ha, eq_comm]

end Sys2Proof.Machine
end

section
/-! SUPPORT. What performing an operation can do, said once for each instance (10_state.md R43): the instance's new
state and the response, from that instance alone; and when it faults (60_exceptions.md R211). -/

namespace Sys2Proof.Machine

/-- What an operation of the encoder instance makes of it, and its response. -/
def EncoderGives (ecap : Nat) (e e' : Encoder) (r : Response) : Instr → Prop
  | .encInit => e' = encoderInit e ∧ r = ⟨.done, 0⟩
  | .encByte b => encoderByte ecap b e = .ok e' ∧ r = ⟨.done, 0⟩
  | .encFinish => encoderFinish ecap e = .ok e' ∧ r = ⟨.done, e'.ecur⟩
  | .decInit _ => False
  | .decByte _ => False

/-- What an operation of the decoder instance makes of it, and its response. -/
def DecoderGives (size : Nat) (d d' : Decoder) (r : Response) : Instr → Prop
  | .encInit => False
  | .encByte _ => False
  | .encFinish => False
  | .decInit cap => cap ≤ size ∧ d' = decoderInit cap d ∧ r = ⟨.done, 0⟩
  | .decByte b => d.dphase = .ready ∧ d' = (decoderByte b d).1 ∧ r = (decoderByte b d).2

section
variable {i : Instr} {s t : State}

/-- An encoder operation completes exactly with what it makes of the encoder; the rest of the state it keeps. -/
theorem exec_encoderOp_next (hi : isEncoderOp i = true) :
    exec i s = .next t ↔ ∃ e r, EncoderGives s.params.ecap s.enc e r i ∧
      t = { s with enc := e }.respond r := by
  cases i with
  | encInit => simp [exec_encInit, EncoderGives, eq_comm]
  | encByte b => simp [exec_encByte_next, EncoderGives]
  | encFinish => simp [exec_encFinish_next, EncoderGives]
  | decInit cap => cases hi
  | decByte b => cases hi

/-- A decoder operation completes exactly with what it makes of the decoder; the rest of the state it keeps. -/
theorem exec_decoderOp_next (hi : isEncoderOp i = false) :
    exec i s = .next t ↔ ∃ d r, DecoderGives s.params.dbufSize s.dec d r i ∧
      t = { s with dec := d }.respond r := by
  cases i with
  | encInit => cases hi
  | encByte b => cases hi
  | encFinish => cases hi
  | decInit cap => simp [exec_decInit_next, DecoderGives, and_assoc]
  | decByte b => simp [exec_decByte_next, DecoderGives, and_assoc]

end

theorem ephase_ne_active_iff (p : EncPhase) : p ≠ .active ↔ p = .uninit ∨ p = .final := by
  cases p <;> simp

theorem dphase_ne_ready_iff (p : DecPhase) : p ≠ .ready ↔ p = .uninit := by
  cases p <;> simp

/-- An operation faults exactly on the broken preconditions of 60_exceptions.md R211. -/
theorem exec_fault_iff (i : Instr) (s : State) (f : Fault) :
    exec i s = .fault f ↔ brokenPrecondition i s f := by
  cases i with
  | encInit => cases f <;> simp [exec_encInit, brokenPrecondition]
  | encByte b =>
    rw [exec_encByte_fault, encoderByte_error, ephase_ne_active_iff]
    cases f <;> simp [brokenPrecondition]
  | encFinish =>
    rw [exec_encFinish_fault, encoderFinish_error, ephase_ne_active_iff]
    cases f <;> simp [brokenPrecondition]
  | decInit cap =>
    rw [exec_decInit_fault]
    cases f <;> simp [brokenPrecondition]
  | decByte b =>
    rw [exec_decByte_fault, dphase_ne_ready_iff]
    cases f <;> simp [brokenPrecondition]

theorem encoderDone_ne_refused (o : Except Fault Encoder) (v : Encoder → Nat) (s : State) (r : Refusal) :
    encoderDone o v s ≠ .refused r := by
  cases o <;> simp [encoderDone]

theorem exec_ne_refused (i : Instr) (s : State) (r : Refusal) : exec i s ≠ .refused r := by
  cases i with
  | encInit => simp [exec_encInit]
  | encByte b => exact encoderDone_ne_refused _ _ s r
  | encFinish => exact encoderDone_ne_refused _ _ s r
  | decInit cap =>
    show execDecInit cap s ≠ _
    unfold execDecInit
    split_ifs <;> simp [decoderDone]
  | decByte b =>
    show execDecByte b s ≠ _
    unfold execDecByte
    split_ifs <;> simp [decoderDone]

/-- Settles O11: an operation that neither faults nor is refused completes. -/
theorem faultsExactlyOnBrokenPreconditions : Obligations.FaultsExactlyOnBrokenPreconditions := by
  refine fun i s => ⟨exec_fault_iff i s, exec_ne_refused i s, fun hok => ?_⟩
  cases h : exec i s with
  | next t => exact ⟨t, rfl⟩
  | fault f => exact absurd ((exec_fault_iff i s f).mp h) (hok f)
  | refused r => exact absurd h (exec_ne_refused i s r)

end Sys2Proof.Machine
end

section
/-! SUPPORT. The step (00_scope.md R9): one lemma per form of the host's list, and the run of a list of command words
(70_reset_and_hazards.md R247). -/

namespace Sys2Proof.Machine

section
variable {s : State} {w : CmdWord} {rest : List CmdWord}

theorem step_of_decode_ok {i : Instr} (hs : s.host.commands = w :: rest) (hw : decode w = .ok i) :
    step s = exec i (s.withCommands rest) := by
  simp [step, hs, hw]

theorem step_of_decode_error {why : IllegalWord} (hs : s.host.commands = w :: rest)
    (hw : decode w = .error why) : step s = .refused (.illegalCommand why) := by
  simp [step, hs, hw]

theorem step_of_no_command (hs : s.host.commands = []) : step s = .refused .noCommand := by
  simp [step, hs]

end

/-- Settles O8: the step's branch for a word that decodes. -/
theorem stepRunsDecodedCommand : Obligations.StepRunsDecodedCommand :=
  fun _ _ _ _ => step_of_decode_ok

/-- Settles O9: the step's branch for an empty list. -/
theorem stepStopsWithoutCommand : Obligations.StepStopsWithoutCommand :=
  fun _ => step_of_no_command

/-- Settles O4: a word that decodes is the word of an operation, and those match a row. -/
theorem unmatchedWordIsRefused : Obligations.UnmatchedWordIsRefused := by
  intro s w rest hrows hs
  cases hw : decode w with
  | error why => exact ⟨why, rfl, step_of_decode_error hs hw⟩
  | ok i =>
    obtain ⟨hwf, rfl⟩ := encodeOfDecode w i hw
    obtain ⟨r, hr, hm⟩ := exists_rowMatches_encode hwf
    exact absurd hm (by simp [hrows r hr])

/-- A step that completes is an operation performed on the state with the rest of the host's list. -/
theorem exists_exec_of_step {s t : State} (h : step s = .next t) :
    ∃ i ws, exec i (s.withCommands ws) = .next t := by
  cases hs : s.host.commands with
  | nil =>
    rw [step_of_no_command hs] at h
    cases h
  | cons w rest =>
    cases hw : decode w with
    | error why =>
      rw [step_of_decode_error hs hw] at h
      cases h
    | ok i => exact ⟨i, rest, by rw [← step_of_decode_ok hs hw, h]⟩

/-- An operation leaves the host's list as it is and does not depend on it. -/
theorem exec_withCommands (i : Instr) (s : State) (ws : List CmdWord) :
    exec i (s.withCommands ws) = onNext (exec i s) fun t => .next (t.withCommands ws) := by
  cases h : exec i s with
  | next t =>
    rw [onNext_next]
    cases hi : isEncoderOp i with
    | true =>
      obtain ⟨e, r, hgives, rfl⟩ := (exec_encoderOp_next hi).mp h
      exact (exec_encoderOp_next hi).mpr ⟨e, r, hgives, rfl⟩
    | false =>
      obtain ⟨d, r, hgives, rfl⟩ := (exec_decoderOp_next hi).mp h
      exact (exec_decoderOp_next hi).mpr ⟨d, r, hgives, rfl⟩
  | fault f =>
    rw [exec_fault_iff] at h
    exact (exec_fault_iff i _ f).mpr (by cases f <;> exact h)
  | refused r => exact absurd h (exec_ne_refused i s r)

/-- The host's run of `k` steps, in the machine's own types. -/
def runSteps (k : Nat) (s : State) : Host.Outcome State Fault Refusal := core.run k s

/-- One step more is a step and then the run of the others. -/
theorem runSteps_succ (k : Nat) (s : State) : runSteps (k + 1) s = onNext (step s) (runSteps k) := by
  refine (Host.Core.run.eq_2 core s k).trans ?_
  show _ = onNext (core.step s) _
  cases core.step s <;> rfl

/-- The run of the words of a list of operations is the run of the list, by induction on it: a step performs the
first operation, which leaves the words of the others in the host's list. -/
theorem runSteps_encode (ops : List Instr) (s : State) (rest : List CmdWord) (hwf : ∀ i ∈ ops, i.wf = true) :
    runSteps ops.length (s.withCommands (ops.map encode ++ rest)) = runOps ops (s.withCommands rest) := by
  induction ops generalizing s with
  | nil => rfl
  | cons i is ih =>
    obtain ⟨hi, his⟩ := List.forall_mem_cons.mp hwf
    have hstep : step (s.withCommands ((i :: is).map encode ++ rest)) =
        exec i (s.withCommands (is.map encode ++ rest)) := step_of_decode_ok rfl (decodeOfEncode i hi)
    rw [List.length_cons, runSteps_succ, hstep, runOps, exec_withCommands, exec_withCommands i s rest,
      onNext_assoc, onNext_assoc]
    exact congrArg _ (funext fun t => ih t his)

/-- Settles O10: the host's run is the machine's own. -/
theorem runOfCommandWords : Obligations.RunOfCommandWords :=
  runSteps_encode

end Sys2Proof.Machine
end

section
/-! SUPPORT. The invariant of the encoder (10_state.md R28, R29, R42): what holds while a run is open, the full run
about to be closed included, and that every encoder operation keeps it. -/

namespace Sys2Proof.Machine

/-- While a run is open: `Encoder.Inv` in phase `Active` but for the bound on `ECODE`, which the 254th literal
passes before its run is closed (41_encoder.md R107). -/
structure RunOpen (ecap : Nat) (e : Encoder) : Prop where
  canonical : e.ebuf.wf
  inside : e.ebuf.below ecap
  markRange : e.emark ≤ ecap
  curRange : e.ecur ≤ ecap + 1
  reserved : e.ebuf.read e.emark = none
  cursor : e.ecur = e.emark + e.ecode.toNat
  codeLow : 1 ≤ e.ecode.toNat
  written : ∀ i, i < e.ecur → i ≠ e.emark → (e.ebuf.read i).isSome
  noZero : ∀ i, i < e.ecur → e.ebuf.read i ≠ some Config.delim
  markers : MarkerChain e.ebuf 0 e.emark

section
variable {ecap : Nat} {e : Encoder} {b : Byte}

theorem Encoder.Inv.runOpen (h : e.Inv ecap) (ha : e.ephase = .active) : RunOpen ecap e where
  canonical := h.canonical
  inside := h.inside
  markRange := h.markRange
  curRange := h.curRange
  reserved := h.reserved ha
  cursor := h.cursor ha
  codeLow := h.codeLow ha
  written := h.written ha
  noZero := h.noZero ha
  markers := h.markers ha

/-- An open run that is not full is what the invariant asks for in phase `Active`. -/
theorem RunOpen.inv (h : RunOpen ecap e) (hcode : e.ecode.toNat ≤ 254) (ha : e.ephase = .active) :
    e.Inv ecap where
  canonical := h.canonical
  inside := h.inside
  markRange := h.markRange
  curRange := h.curRange
  reserved _ := h.reserved
  cursor _ := h.cursor
  codeLow _ := h.codeLow
  codeHigh _ := hcode
  written _ := h.written
  noZero _ := h.noZero
  markers _ := h.markers
  finished hf := by simp [ha] at hf

theorem RunOpen.emark_lt_ecur (h : RunOpen ecap e) : e.emark < e.ecur := by
  have hcursor := h.cursor
  have hlow := h.codeLow
  omega

/-- With the reserved cell inside EBUF the cursor is at most one past its end: the literals up to it are inside. -/
theorem RunOpen.ecur_le (h : RunOpen ecap e) (hm : e.emark < ecap) : e.ecur ≤ ecap := by
  by_contra hgt
  have hsome := h.written ecap (by omega) hm.ne'
  rw [Memory.read_of_below _ _ _ h.inside le_rfl] at hsome
  cases hsome

/-- `ENC_INIT` opens an empty run (41_encoder.md R101). -/
theorem Encoder.Inv.encoderInit (h : e.Inv ecap) : (encoderInit e).Inv ecap := by
  have hopen : RunOpen ecap (Machine.encoderInit e) :=
    { canonical := Memory.wf_erase _ _ h.canonical
      inside := Memory.below_erase _ _ _ h.inside
      markRange := Nat.zero_le _
      curRange := Nat.le_add_left _ _
      reserved := by simp [Machine.encoderInit]
      cursor := rfl
      codeLow := le_rfl
      written := fun i hi hne => absurd (Nat.lt_one_iff.mp hi) hne
      noZero := fun i hi => by simp [Machine.encoderInit, Nat.lt_one_iff.mp hi]
      markers := .stop 0 }
  exact hopen.inv (show 1 ≤ 254 by decide) rfl

/-- A copied literal leaves the run open (41_encoder.md R102). -/
theorem RunOpen.literalCopied (h : RunOpen ecap e) (hb : b ≠ Config.delim) (hc : e.ecur < ecap)
    (hcode : e.ecode.toNat ≤ 254) : RunOpen ecap (literalCopied b e) := by
  have hlt := h.emark_lt_ecur
  have hcount : (e.ecode + 1#8).toNat = e.ecode.toNat + 1 := by bv_omega
  exact
    { canonical := Memory.wf_write _ _ _ h.canonical
      inside := Memory.below_write _ _ _ _ hc h.inside
      markRange := h.markRange
      curRange := Nat.succ_le_succ hc.le
      reserved := by simp [Machine.literalCopied, hlt.ne, h.reserved]
      cursor := by simp only [Machine.literalCopied, hcount, h.cursor, Nat.add_assoc]
      codeLow := by simp only [Machine.literalCopied, hcount, Nat.le_add_left]
      written := fun i hi hne => by
        rw [literalCopied_read]
        split_ifs with heq
        · rfl
        · exact h.written i (lt_of_le_of_ne (Nat.le_of_lt_succ hi) heq) hne
      noZero := fun i hi => by
        rw [literalCopied_read]
        split_ifs with heq
        · simpa using hb
        · exact h.noZero i (lt_of_le_of_ne (Nat.le_of_lt_succ hi) heq)
      markers := h.markers.congr fun a ha => by
        rw [literalCopied_read, if_neg (ha.trans hlt).ne] }

/-- Closing a run opens the next one; the new closed marker points to its reserved cell (41_encoder.md R106). -/
theorem RunOpen.runClosed (h : RunOpen ecap e) (hm : e.emark < ecap) : RunOpen ecap (runClosed e) := by
  have hlt := h.emark_lt_ecur
  have hle := h.ecur_le hm
  exact
    { canonical := Memory.wf_erase _ _ (Memory.wf_write _ _ _ h.canonical)
      inside := Memory.below_erase _ _ _ (Memory.below_write _ _ _ _ hm h.inside)
      markRange := hle
      curRange := Nat.succ_le_succ hle
      reserved := by rw [runClosed_read]; exact if_pos rfl
      cursor := rfl
      codeLow := le_rfl
      written := fun i hi hne => by
        have hi : i < e.ecur := lt_of_le_of_ne (Nat.le_of_lt_succ hi) hne
        rw [runClosed_read, if_neg hi.ne]
        split_ifs with heq
        · rfl
        · exact h.written i hi heq
      noZero := fun i hi => by
        have hcode : e.ecode ≠ Config.delim := fun h0 => by simpa [h0, Config.delim] using h.codeLow
        rw [runClosed_read]
        split_ifs with hcur hmark
        · simp
        · simpa using hcode
        · exact h.noZero i (lt_of_le_of_ne (Nat.le_of_lt_succ hi) hcur)
      markers := by
        have hchain : MarkerChain (Machine.runClosed e).ebuf 0 e.emark := h.markers.congr fun a ha => by
          rw [runClosed_read, if_neg (ha.trans hlt).ne, if_neg ha.ne]
        have hmark : (Machine.runClosed e).ebuf.read e.emark = some e.ecode := by
          rw [runClosed_read, if_neg hlt.ne, if_pos rfl]
        have hjump := hchain.snoc hmark h.codeLow
        rwa [← h.cursor] at hjump }

/-- `ENC_BYTE` keeps the invariant: the run stays open and short of full, or it is closed and the next one is empty
(41_encoder.md R102). -/
theorem Encoder.Inv.byteTaken (h : e.Inv ecap) (ha : e.ephase = .active) (hc : b ≠ Config.delim → e.ecur < ecap)
    (hm : closesRun b e → e.emark < ecap) : (byteTaken b e).Inv ecap := by
  have hopen := h.runOpen ha
  have hcode := h.codeHigh ha
  obtain ⟨hb, heq⟩ | ⟨hb, hclose, heq⟩ | ⟨hb, hclose, heq⟩ := byteTaken_cases b e <;> rw [heq]
  · exact (hopen.runClosed (hm (.inl hb))).inv (show 1 ≤ 254 by decide) ha
  · exact ((hopen.literalCopied hb (hc hb) hcode).runClosed (hm hclose)).inv (show 1 ≤ 254 by decide) ha
  · refine (hopen.literalCopied hb (hc hb) hcode).inv ?_ ha
    have hne : e.ecode + 1#8 ≠ 0xFF#8 := (not_or.mp hclose).2
    show (e.ecode + 1#8).toNat ≤ 254
    bv_omega

/-- A terminated frame holds a byte in each of its cells (41_encoder.md R117). -/
theorem RunOpen.frameTerminated_filled (h : RunOpen ecap e) :
    (frameTerminated e).ebuf.filled (frameTerminated e).ecur := by
  intro i hi
  have hle : i ≤ e.ecur := Nat.le_of_lt_succ hi
  by_cases hcur : i = e.ecur
  · rw [hcur, frameTerminated_read_ecur]
    rfl
  · by_cases hmark : i = e.emark
    · rw [hmark, frameTerminated_read_emark _ h.emark_lt_ecur.ne]
      rfl
    · rw [frameTerminated_read_other _ _ hmark hcur]
      exact h.written i (lt_of_le_of_ne hle hcur) hmark

/-- `ENC_FINISH` keeps the invariant (41_encoder.md R103). -/
theorem Encoder.Inv.frameTerminated (h : e.Inv ecap) (ha : e.ephase = .active) (hm : e.emark < ecap)
    (hc : e.ecur < ecap) : (frameTerminated e).Inv ecap where
  canonical := Memory.wf_write _ _ _ (Memory.wf_write _ _ _ h.canonical)
  inside := Memory.below_write _ _ _ _ hc (Memory.below_write _ _ _ _ hm h.inside)
  markRange := h.markRange
  curRange := Nat.succ_le_succ hc.le
  reserved := nofun
  cursor := nofun
  codeLow := nofun
  codeHigh := nofun
  written := nofun
  noZero := nofun
  markers := nofun
  finished _ := (h.runOpen ha).frameTerminated_filled

/-- Every encoder operation keeps the encoder's invariant. -/
theorem EncoderGives.inv {e' : Encoder} {r : Response} {i : Instr} (hgives : EncoderGives ecap e e' r i)
    (h : e.Inv ecap) : e'.Inv ecap := by
  cases i with
  | encInit =>
    obtain ⟨rfl, -⟩ := hgives
    exact h.encoderInit
  | encByte b =>
    obtain ⟨ha, hc, hm, rfl⟩ := (encoderByte_ok ..).mp hgives.1
    exact h.byteTaken ha hc hm
  | encFinish =>
    obtain ⟨ha, hm, hc, rfl⟩ := (encoderFinish_ok ..).mp hgives.1
    exact h.frameTerminated ha hm hc
  | decInit cap => cases hgives
  | decByte b => cases hgives

end

end Sys2Proof.Machine
end

section
/-! SUPPORT. The invariant of the decoder (10_state.md R37) and of the machine (10_state.md R42): it holds at power-on
and every operation keeps it. -/

namespace Sys2Proof.Machine

section
variable {size : Nat} {d : Decoder}

/-- A byte written behind filled cells fills one more. -/
theorem Memory.filled_write {m : Memory} {n : Nat} (h : m.filled n) (v : Byte) : (m.write n v).filled (n + 1) := by
  intro i hi
  rw [Memory.read_write]
  split_ifs with heq
  · rfl
  · exact h i (by omega)

theorem Decoder.Inv.autoReset (h : d.Inv size) : (autoReset d).Inv size where
  canonical := h.canonical
  inside := h.inside
  cursor := Nat.zero_le _
  capRange := h.capRange
  remRange := Nat.zero_le _
  payload := fun i hi => absurd hi i.not_lt_zero

theorem Decoder.Inv.decoderInit {cap : Nat} (h : d.Inv size) (hcap : cap ≤ size) :
    (decoderInit cap d).Inv size where
  canonical := h.canonical
  inside := h.inside
  cursor := Nat.zero_le _
  capRange := hcap
  remRange := Nat.zero_le _
  payload := fun i hi => absurd hi i.not_lt_zero

/-- A byte written at `DW` with room left (43_decoder.md R158). -/
theorem Decoder.Inv.pushDbuf (h : d.Inv size) (hroom : d.dw ≠ d.dcap) (v : Byte) : (pushDbuf v d).Inv size := by
  have hlt : d.dw < d.dcap := lt_of_le_of_ne h.cursor hroom
  exact
    { canonical := Memory.wf_write _ _ _ h.canonical
      inside := Memory.below_write _ _ _ _ (hlt.trans_le h.capRange) h.inside
      cursor := hlt
      capRange := h.capRange
      remRange := h.remRange
      payload := Memory.filled_write h.payload v }

/-- The run counter and the flag may take any values in their range. -/
theorem Decoder.Inv.setCounters (h : d.Inv size) {drem : Byte} (hrem : drem.toNat ≤ 254) (dmand : Bool) :
    Decoder.Inv size { d with drem := drem, dmand := dmand } where
  canonical := h.canonical
  inside := h.inside
  cursor := h.cursor
  capRange := h.capRange
  remRange := hrem
  payload := h.payload

/-- `DEC_BYTE` keeps the invariant, branch by branch (43_decoder.md R152). -/
theorem Decoder.Inv.decoderByte (h : d.Inv size) (b : Byte) : (decoderByte b d).1.Inv size := by
  have hload : b ≠ Config.delim → (b - 1#8).toNat ≤ 254 := fun hb => by
    have hb : b ≠ 0#8 := hb
    bv_omega
  obtain ⟨st, v, hreset, -⟩ | ⟨hr, -, hroom, hliteral⟩ | ⟨-, hb, -, hroom, howed⟩ | ⟨-, hb, -, hmarker⟩ :=
    decoderByte_cases b d
  · rw [hreset]
    exact h.autoReset
  · rw [hliteral]
    have hrem := h.remRange
    exact (h.pushDbuf hroom b).setCounters (by bv_omega) d.dmand
  · rw [howed]
    exact (h.pushDbuf hroom _).setCounters (hload hb) _
  · rw [hmarker]
    exact h.setCounters (hload hb) _

/-- Every decoder operation keeps the decoder's invariant. -/
theorem DecoderGives.inv {d' : Decoder} {r : Response} {i : Instr} (hgives : DecoderGives size d d' r i)
    (h : d.Inv size) : d'.Inv size := by
  cases i with
  | encInit => cases hgives
  | encByte b => cases hgives
  | encFinish => cases hgives
  | decInit cap =>
    obtain ⟨hcap, rfl, -⟩ := hgives
    exact h.decoderInit hcap
  | decByte b =>
    obtain ⟨-, rfl, -⟩ := hgives
    exact h.decoderByte b

end

/-- An operation changes one instance and keeps that one's invariant. -/
theorem State.Inv.exec {i : Instr} {s t : State} (h : s.Inv) (hexec : exec i s = .next t) : t.Inv := by
  cases hi : isEncoderOp i with
  | true =>
    obtain ⟨e, r, hgives, rfl⟩ := (exec_encoderOp_next hi).mp hexec
    exact ⟨h.params, hgives.inv h.enc, h.dec⟩
  | false =>
    obtain ⟨d, r, hgives, rfl⟩ := (exec_decoderOp_next hi).mp hexec
    exact ⟨h.params, h.enc, hgives.inv h.dec⟩

/-- Settles O35: a step that completes performs an operation, and the host's list is no part of the invariant. -/
theorem stepKeepsInvariant : Obligations.StepKeepsInvariant := by
  intro s t h hstep
  obtain ⟨i, ws, hexec⟩ := exists_exec_of_step hstep
  have hws : (s.withCommands ws).Inv := ⟨h.params, h.enc, h.dec⟩
  exact hws.exec hexec

theorem powerOn_inv {p : Params} (h : p.WF) : (State.powerOn p).Inv where
  params := h
  enc := by constructor <;> simp [State.powerOn]
  dec := by constructor <;> simp [State.powerOn, Memory.filled]

/-- Settles O36: neither instance is initialised, and the largest parameters meet the side conditions. -/
theorem powerOnMeetsInvariant : Obligations.PowerOnMeetsInvariant :=
  ⟨fun _ => powerOn_inv, powerOn_inv (by decide)⟩

/-- Settles O37: from phase `Uninit` only the two initialisations complete. -/
theorem powerOnOperations : Obligations.PowerOnOperations := by
  refine fun p => ⟨rfl, rfl, fun a => ⟨rfl, rfl⟩, fun i => ?_⟩
  cases i with
  | encInit => simp [exec_encInit]
  | encByte b => simp [exec_encByte_next, encoderByte_ok, State.powerOn]
  | encFinish => simp [exec_encFinish_next, encoderFinish_ok, State.powerOn]
  | decInit cap => simp [exec_decInit_next, State.powerOn]
  | decByte b => simp [exec_decByte_next, State.powerOn]

/-- Settles O44: the ranges of the invariant lie below `2^32` by the side conditions on the parameters. -/
theorem registersFitTheirWidths : Obligations.RegistersFitTheirWidths := by
  intro s h
  obtain ⟨hecap, hsize⟩ := h.params
  have hmark := h.enc.markRange
  have hcur := h.enc.curRange
  have hcap := h.dec.capRange
  have hdw := h.dec.cursor
  refine ⟨by omega, by omega, by omega, by omega, Nat.lt_succ_of_le h.dec.remRange, fun ha => ?_⟩
  exact ⟨Nat.lt_succ_of_le (h.enc.codeHigh ha), h.enc.cursor ha⟩

end Sys2Proof.Machine
end

section
/-! SUPPORT. The encoder's operations, one by one (41_encoder.md R101 to R119): which cells and registers each
changes and which it keeps. -/

namespace Sys2Proof.Machine

/-- `ENC_BYTE` completes where the cells it writes are inside EBUF (41_encoder.md R102, R111). -/
theorem exec_encByte_active {b : Byte} {s : State} (ha : s.enc.ephase = .active)
    (hc : b ≠ Config.delim → s.enc.ecur < s.params.ecap) (hm : closesRun b s.enc → s.enc.emark < s.params.ecap) :
    exec (.encByte b) s = .next ({ s with enc := byteTaken b s.enc }.respond ⟨.done, 0⟩) :=
  (exec_encByte_next b s _).mpr ⟨_, (encoderByte_ok ..).mpr ⟨ha, hc, hm, rfl⟩, rfl⟩

theorem exec_encByte_byteTaken {b : Byte} {s t : State} (h : exec (.encByte b) s = .next t) :
    s.enc.ephase = .active ∧ t = { s with enc := byteTaken b s.enc }.respond ⟨.done, 0⟩ := by
  obtain ⟨e, he, rfl⟩ := (exec_encByte_next b s t).mp h
  obtain ⟨ha, -, -, rfl⟩ := (encoderByte_ok ..).mp he
  exact ⟨ha, rfl⟩

theorem exec_encFinish_frameTerminated {s t : State} (h : exec .encFinish s = .next t) :
    s.enc.ephase = .active ∧ t = { s with enc := frameTerminated s.enc }.respond ⟨.done, s.enc.ecur + 1⟩ := by
  obtain ⟨e, he, rfl⟩ := (exec_encFinish_next s t).mp h
  obtain ⟨ha, -, -, rfl⟩ := (encoderFinish_ok ..).mp he
  exact ⟨ha, rfl⟩

section
variable (b : Byte) (e : Encoder)

theorem byteTaken_ephase : (byteTaken b e).ephase = e.ephase := by
  obtain ⟨-, h⟩ | ⟨-, -, h⟩ | ⟨-, -, h⟩ := byteTaken_cases b e <;> rw [h] <;> rfl

theorem ecur_le_byteTaken_ecur : e.ecur ≤ (byteTaken b e).ecur := by
  obtain ⟨-, h⟩ | ⟨-, -, h⟩ | ⟨-, -, h⟩ := byteTaken_cases b e <;> rw [h]
  · exact Nat.le_add_right _ 1
  · exact Nat.le_add_right _ 2
  · exact Nat.le_add_right _ 1

/-- The reserved cell changes only when the run closes, to the one after the bytes copied (41_encoder.md R106). -/
theorem byteTaken_emark :
    (closesRun b e ∧ (byteTaken b e).emark = nextMark b e) ∨
    (¬ closesRun b e ∧ (byteTaken b e).emark = e.emark) := by
  obtain ⟨hb, h⟩ | ⟨hb, hclose, h⟩ | ⟨-, hclose, h⟩ := byteTaken_cases b e <;> rw [h]
  · exact .inl ⟨.inl hb, (if_pos hb).symm⟩
  · exact .inl ⟨hclose, (if_neg hb).symm⟩
  · exact .inr ⟨hclose, rfl⟩

/-- `ENC_BYTE` writes the cell of its literal and, when the run closes, those of the two markers. -/
theorem byteTaken_read_other (a : Nat) (hc : b ≠ Config.delim → a ≠ e.ecur)
    (hm : closesRun b e → a ≠ e.emark ∧ a ≠ nextMark b e) :
    (byteTaken b e).ebuf.read a = e.ebuf.read a := by
  obtain ⟨hb, h⟩ | ⟨hb, hclose, h⟩ | ⟨hb, -, h⟩ := byteTaken_cases b e <;> rw [h]
  · obtain ⟨hmark, hnext⟩ := hm (.inl hb)
    rw [nextMark, if_pos hb] at hnext
    rw [runClosed_read, if_neg hnext, if_neg hmark]
  · obtain ⟨hmark, hnext⟩ := hm hclose
    rw [nextMark, if_neg hb] at hnext
    rw [runClosed_literalCopied_read, if_neg hnext, if_neg hmark, if_neg (hc hb)]
  · rw [literalCopied_read, if_neg (hc hb)]

end

/-- Settles O12: `ENC_INIT` has no precondition and loses the value of cell 0 only. -/
theorem encInitStartsFrame : Obligations.EncInitStartsFrame := by
  refine fun s => ⟨_, exec_encInit s, rfl, rfl, rfl, rfl, ?_, fun a ha => ?_, rfl, rfl, rfl, rfl⟩
  · exact (Memory.read_erase ..).trans (if_pos rfl)
  · exact (Memory.read_erase ..).trans (if_neg ha)

/-- Settles O13: a non-zero byte that does not fill the run closes none. -/
theorem encByteCopiesLiteral : Obligations.EncByteCopiesLiteral := by
  intro b s ha hb hcode hc
  have hopen : ¬ closesRun b s.enc := not_or.mpr ⟨hb, fun hf : _ = 0xFF#8 => hcode (by bv_omega)⟩
  refine ⟨_, exec_encByte_active ha (fun _ => hc) (absurd · hopen), ?_⟩
  rw [byteTaken_literal b s.enc hopen]
  exact ⟨(literalCopied_read ..).trans (if_pos rfl), fun a hne => (literalCopied_read ..).trans (if_neg hne),
    rfl, rfl, rfl, ha, rfl⟩

/-- Settles O14: the cells of the closed and of the new marker differ, since the reserved cell lies below the
cursor. -/
theorem encByteZeroClosesRun : Obligations.EncByteZeroClosesRun := by
  intro s hinv ha hm
  have hlt : s.enc.emark < s.enc.ecur := hinv.enc.emark_lt_ecur ha
  refine ⟨_, exec_encByte_active (b := Config.delim) ha (absurd rfl) (fun _ => hm), ?_⟩
  rw [byteTaken_zero]
  refine ⟨?_, ?_, fun a hmark hcur => ?_, rfl, rfl, rfl, ha, rfl⟩
  · exact (runClosed_read ..).trans (by rw [if_neg hlt.ne, if_pos rfl])
  · exact (runClosed_read ..).trans (if_pos rfl)
  · exact (runClosed_read ..).trans (by rw [if_neg hcur, if_neg hmark])

/-- Settles O15: the literal, the closed marker and the new one stand in three cells. -/
theorem encByteClosesFullRun : Obligations.EncByteClosesFullRun := by
  intro b s hinv ha hb hcode hc
  have hlt : s.enc.emark < s.enc.ecur := hinv.enc.emark_lt_ecur ha
  have hfull : s.enc.ecode + 1#8 = Config.codeFull := by rw [hcode]; rfl
  refine ⟨_, exec_encByte_active ha (fun _ => hc) (fun _ => hlt.trans hc), ?_⟩
  rw [byteTaken_full b s.enc hb hfull]
  refine ⟨?_, ?_, ?_, fun a hcur hmark hnext => ?_, rfl, rfl, rfl, ha, rfl⟩
  · exact (runClosed_literalCopied_read ..).trans (by rw [if_neg (Nat.lt_succ_self _).ne, if_neg hlt.ne', if_pos rfl])
  · exact (runClosed_literalCopied_read ..).trans (by
      rw [if_neg (hlt.trans (Nat.lt_succ_self _)).ne, if_pos rfl, hcode]
      rfl)
  · exact (runClosed_literalCopied_read ..).trans (if_pos rfl)
  · exact (runClosed_literalCopied_read ..).trans (by rw [if_neg hnext, if_neg hmark, if_neg hcur])

/-- Settles O17: the phase is a broken precondition of both. -/
theorem encoderNotActiveFaults : Obligations.EncoderNotActiveFaults :=
  fun b s hphase => ⟨(exec_fault_iff _ s .encNotActive).mpr ⟨hphase, .inl ⟨b, rfl⟩⟩,
    (exec_fault_iff _ s .encNotActive).mpr ⟨hphase, .inr rfl⟩⟩

/-- Settles O18, operation by operation: each keeps all of the state but the encoder, and of EBUF all but the
cells it names. -/
theorem encoderOperationsFrame : Obligations.EncoderOperationsFrame := by
  refine fun s t => ⟨fun h => ?init, fun b h => ?byte, fun h => ?finish⟩
  case init =>
    obtain rfl := Host.Outcome.next.inj ((exec_encInit s).symm.trans h)
    exact ⟨fun a ha => (Memory.read_erase ..).trans (if_neg ha), rfl, rfl, rfl⟩
  case byte =>
    obtain ⟨-, rfl⟩ := exec_encByte_byteTaken h
    refine ⟨byteTaken_read_other b s.enc, fun hopen => ?_, byteTaken_ephase b s.enc, rfl, rfl, rfl⟩
    rw [byteTaken_literal b s.enc hopen]
    rfl
  case finish =>
    obtain ⟨-, rfl⟩ := exec_encFinish_frameTerminated h
    exact ⟨frameTerminated_read_other s.enc, rfl, rfl, rfl, rfl, rfl⟩

/-- A cell of the frame so far whose byte no later operation of the frame writes (41_encoder.md R116). -/
def Committed (e : Encoder) (a : Nat) : Prop := a < e.ecur ∧ a ≠ e.emark

/-- `ENC_BYTE` keeps the committed cells and their bytes: it writes at or past the cursor and in the reserved
cell. -/
theorem Committed.byteTaken {e : Encoder} {a : Nat} (h : Committed e a) (b : Byte) :
    Committed (byteTaken b e) a ∧ (byteTaken b e).ebuf.read a = e.ebuf.read a := by
  obtain ⟨hcur, hmark⟩ := h
  have hnext : a ≠ nextMark b e := by
    unfold nextMark
    split_ifs <;> omega
  refine ⟨⟨hcur.trans_le (ecur_le_byteTaken_ecur b e), ?_⟩,
    byteTaken_read_other b e a (fun _ => hcur.ne) fun _ => ⟨hmark, hnext⟩⟩
  obtain ⟨-, heq⟩ | ⟨-, heq⟩ := byteTaken_emark b e <;> rw [heq]
  · exact hnext
  · exact hmark

/-- So do any `ENC_BYTE`s, by induction on them. -/
theorem Committed.runOps {s t : State} {a : Nat} (h : Committed s.enc a) (bs : List Byte)
    (hrun : runOps (encChunkOps bs) s = .next t) :
    Committed t.enc a ∧ t.enc.ebuf.read a = s.enc.ebuf.read a := by
  induction bs generalizing s with
  | nil =>
    obtain rfl := Host.Outcome.next.inj hrun
    exact ⟨h, rfl⟩
  | cons b bs ih =>
    obtain ⟨u, hu, hrest⟩ := (onNext_eq_next ..).mp hrun
    obtain ⟨-, rfl⟩ := exec_encByte_byteTaken hu
    obtain ⟨hcommitted, hsame⟩ := h.byteTaken b
    obtain ⟨hlater, hread⟩ := ih hcommitted hrest
    exact ⟨hlater, hread.trans hsame⟩

/-- Settles O19: the cells below `ECUR` but the reserved one hold bytes by the invariant and are committed, and
`ENC_FINISH` writes no committed cell. -/
theorem committedPrefixIsFinal : Obligations.CommittedPrefixIsFinal := by
  intro s t bs hinv ha hrun
  refine ⟨fun a hcur hmark => ?bytes, fun u hu a hcur hmark => ?finish⟩
  case bytes =>
    exact ⟨hinv.enc.written ha a hcur hmark, (Committed.runOps ⟨hcur, hmark⟩ bs hrun).2⟩
  case finish =>
    obtain ⟨⟨hcur', hmark'⟩, hread⟩ := Committed.runOps (s := s) ⟨hcur, hmark⟩ bs hrun
    obtain ⟨-, rfl⟩ := exec_encFinish_frameTerminated hu
    exact (frameTerminated_read_other t.enc a hmark' hcur'.ne).trans hread

/-- Settles O20: the last marker and the terminator fill the two cells of the frame that held no byte. -/
theorem finishedFrameHasNoGap : Obligations.FinishedFrameHasNoGap := by
  intro s t hinv h
  obtain ⟨ha, rfl⟩ := exec_encFinish_frameTerminated h
  exact ⟨s.enc.ecur + 1, rfl, (hinv.enc.runOpen ha).frameTerminated_filled⟩

/-- Settles O21: the terminator is 0x00, the last marker is at least 1, and the other cells hold no 0x00 by the
invariant. -/
theorem finishedFrameHasNoInnerZero : Obligations.FinishedFrameHasNoInnerZero := by
  intro s t hinv h
  obtain ⟨ha, rfl⟩ := exec_encFinish_frameTerminated h
  have hlt : s.enc.emark < s.enc.ecur := hinv.enc.emark_lt_ecur ha
  refine ⟨s.enc.ecur + 1, rfl, fun a hlen => ?_⟩
  rw [Nat.succ_inj]
  by_cases hcur : a = s.enc.ecur
  · exact iff_of_true (hcur ▸ frameTerminated_read_ecur s.enc) hcur
  · refine iff_of_false (fun hzero => ?_) hcur
    by_cases hmark : a = s.enc.emark
    · have hcode := (frameTerminated_read_emark s.enc hlt.ne).symm.trans (hmark ▸ hzero)
      have hlow := hinv.enc.codeLow ha
      rw [Option.some.inj hcode] at hlow
      exact absurd hlow (by decide)
    · exact hinv.enc.noZero ha a (by omega) ((frameTerminated_read_other s.enc a hmark hcur).symm.trans hzero)

end Sys2Proof.Machine
end

section
/-! SUPPORT. The decoder's operations, one by one (43_decoder.md R151 to R174), and the host's reads of the buffers
(20_memory.md R54). -/

namespace Sys2Proof.Machine

/-- `DEC_BYTE` writes at most the cell at `DW`. -/
theorem decoderByte_read_other (b : Byte) (d : Decoder) (a : Nat) (ha : a ≠ d.dw) :
    (decoderByte b d).1.dbuf.read a = d.dbuf.read a := by
  obtain ⟨hbuf, -⟩ | ⟨-, -, v, hbuf⟩ := decoderByte_dbuf b d <;> rw [hbuf]
  rw [Memory.read_write, if_neg ha]

@[simp] theorem decoderByte_dphase (b : Byte) (d : Decoder) : (decoderByte b d).1.dphase = d.dphase := by
  obtain ⟨st, v, h, -⟩ | ⟨-, -, -, h⟩ | ⟨-, -, -, -, h⟩ | ⟨-, -, -, h⟩ := decoderByte_cases b d <;> rw [h] <;> rfl

/-- A marker loads the count of its literals, and the flag exactly for a full run (43_decoder.md R153). -/
theorem loadMarker_counters {m : Byte} (hm : m ≠ 0x00#8) (d : Decoder) :
    (loadMarker m d).drem.toNat = m.toNat - 1 ∧ ((loadMarker m d).dmand = true ↔ m = 0xFF#8) := by
  refine ⟨?_, beq_iff_eq⟩
  show (m - 1#8).toNat = m.toNat - 1
  bv_omega

/-- Settles O22: the one precondition is that the buffer has the capacity. -/
theorem decInitBindsCapacity : Obligations.DecInitBindsCapacity :=
  fun cap s => ⟨fun hcap => ⟨_, (exec_decInit_next cap s _).mpr ⟨hcap, rfl⟩,
    rfl, rfl, rfl, rfl, rfl, rfl, rfl, rfl, rfl, rfl⟩, fun hcap => (exec_decInit_fault cap s _).mpr ⟨hcap, rfl⟩⟩

/-- Settles O23: the phase is a broken precondition. -/
theorem decByteNotReadyFaults : Obligations.DecByteNotReadyFaults :=
  fun b s hphase => (exec_fault_iff _ s .decNotReady).mpr ⟨hphase, b, rfl⟩

/-- Settles O27: the byte is a literal in a run, or a marker that owes a delimiter. -/
theorem decByteOverflow : Obligations.DecByteOverflow := by
  intro b s hp hb hfull hwrite
  by_cases hr : s.dec.drem = 0#8
  · have howed : s.dec.dmand = false := hwrite.resolve_left (absurd hr)
    exact exec_decByte_reset hp (decoderByte_overflowDelimiter b s.dec hr hb howed hfull)
  · exact exec_decByte_reset hp (decoderByte_overflowLiteral b s.dec hr hb hfull)

/-- Settles O29: the marker is loaded and nothing else is done. -/
theorem decByteLoadsMarker : Obligations.DecByteLoadsMarker := by
  intro m s hp hr hm hmand
  obtain ⟨hdrem, hdmand⟩ := loadMarker_counters hm s.dec
  exact ⟨_, exec_decByte_ready hp (decoderByte_marker m s.dec hr hm hmand), rfl, rfl, hdrem, hdmand, rfl, hp, rfl⟩

/-- Settles O30: the delimiter is written, then the marker is loaded. -/
theorem decByteWritesOwedDelimiter : Obligations.DecByteWritesOwedDelimiter := by
  intro m s hp hr hm hmand hroom
  obtain ⟨hdrem, hdmand⟩ := loadMarker_counters hm (pushDbuf Config.delim s.dec)
  exact ⟨_, exec_decByte_ready hp (decoderByte_delimiterMarker m s.dec hr hm hmand hroom),
    (Memory.read_write ..).trans (if_pos rfl), fun a ha => (Memory.read_write ..).trans (if_neg ha),
    rfl, hdrem, hdmand, rfl, hp, rfl⟩

/-- Settles O31: `DEC_INIT` writes no cell, `DEC_BYTE` at most one, and both keep all of the state but the
decoder. -/
theorem decoderOperationsFrame : Obligations.DecoderOperationsFrame := by
  refine fun s t => ⟨fun cap h => ?init, fun b h => ?byte⟩
  case init =>
    obtain ⟨-, rfl⟩ := (exec_decInit_next cap s t).mp h
    exact ⟨fun a => rfl, rfl, rfl, rfl⟩
  case byte =>
    obtain ⟨-, rfl⟩ := (exec_decByte_next b s t).mp h
    exact ⟨decoderByte_read_other b s.dec, decoderByte_dcap b s.dec, decoderByte_dphase b s.dec, rfl, rfl, rfl⟩

/-- Settles O34: in a marker position the byte is the terminator, in a run it is malformed; both reset. -/
theorem zeroByteSynchronises : Obligations.ZeroByteSynchronises := by
  intro s hp
  by_cases hr : s.dec.drem = 0#8
  · exact ⟨_, exec_decByte_ready hp (decoderByte_terminator s.dec hr), autoReset_initial _, rfl, hp,
      fun _ => by rw [responseOf_respond], absurd hr⟩
  · exact ⟨_, exec_decByte_ready hp (decoderByte_malformed s.dec hr), autoReset_initial _, rfl, hp,
      (absurd · hr), fun _ => by rw [responseOf_respond]⟩

/-- Settles O45: the branches of a host read, by the index and the cell. -/
theorem hostReadGivesTheCell : Obligations.HostReadGivesTheCell := by
  refine fun sp a s => ⟨fun v ha hv => ?_, fun ha hnone => ?_, fun ha => ?_⟩
  · rw [hostRead, if_pos ha, hv]
  · rw [hostRead, if_pos ha, hnone]
  · rw [hostRead, if_neg (Nat.not_lt.mpr ha)]

end Sys2Proof.Machine
end

section
/-! SUPPORT. The two instances share nothing (00_scope.md R2), every operation answers once (30_encoding.md R84), and
neither the buffers' contents nor the registers of an uninitialised instance matter (20_memory.md R54, R63;
10_state.md R40). -/

namespace Sys2Proof.Machine

/-- Settles O39: what an operation makes of its instance, and its response, come from that instance and the
parameters alone. -/
theorem instancesShareNothing : Obligations.InstancesShareNothing := by
  refine fun i s t h => ⟨fun hi => ?encoder, fun hi => ?decoder⟩
  case encoder =>
    obtain ⟨e, r, hgives, rfl⟩ := (exec_encoderOp_next hi).mp h
    exact ⟨rfl, fun d => ⟨_, (exec_encoderOp_next hi).mpr ⟨e, r, hgives, rfl⟩, rfl, rfl, rfl⟩⟩
  case decoder =>
    obtain ⟨d, r, hgives, rfl⟩ := (exec_decoderOp_next hi).mp h
    exact ⟨rfl, fun e => ⟨_, (exec_decoderOp_next hi).mpr ⟨d, r, hgives, rfl⟩, rfl, rfl, rfl⟩⟩

/-- Settles O40: each operation makes of its instance what it made of it in the other order, since the other
operation left that instance alone. -/
theorem operationsCommute : Obligations.OperationsCommute := by
  intro i j s t u hi hj hexec hexec'
  obtain ⟨e, ri, hgives, rfl⟩ := (exec_encoderOp_next hi).mp hexec
  obtain ⟨d, rj, hgives', rfl⟩ := (exec_decoderOp_next hj).mp hexec'
  exact ⟨_, _, ri, rj, (exec_decoderOp_next hj).mpr ⟨d, rj, hgives', rfl⟩,
    (exec_encoderOp_next hi).mpr ⟨e, ri, hgives, rfl⟩, rfl, rfl, rfl, by simp, by simp⟩

/-- The response of an encoder operation: `Done`, with a length that fits (60_exceptions.md R201). -/
theorem EncoderGives.response {ecap : Nat} {e e' : Encoder} {r : Response} {i : Instr}
    (hgives : EncoderGives ecap e e' r i) : returnable i r.status = true ∧ r.value ≤ ecap := by
  cases i with
  | encInit =>
    obtain ⟨-, rfl⟩ := hgives
    exact ⟨rfl, Nat.zero_le _⟩
  | encByte b =>
    obtain ⟨-, rfl⟩ := hgives
    exact ⟨rfl, Nat.zero_le _⟩
  | encFinish =>
    obtain ⟨hfinish, rfl⟩ := hgives
    obtain ⟨-, -, hc, rfl⟩ := (encoderFinish_ok ..).mp hfinish
    exact ⟨rfl, hc⟩
  | decInit cap => cases hgives
  | decByte b => cases hgives

/-- The response of a decoder operation: its value is 0 or the length of the payload (60_exceptions.md R201). -/
theorem DecoderGives.response {size : Nat} {d d' : Decoder} {r : Response} {i : Instr}
    (hgives : DecoderGives size d d' r i) : returnable i r.status = true ∧ r.value ≤ d.dw := by
  cases i with
  | encInit => cases hgives
  | encByte b => cases hgives
  | encFinish => cases hgives
  | decInit cap =>
    obtain ⟨-, -, rfl⟩ := hgives
    exact ⟨rfl, Nat.zero_le _⟩
  | decByte b =>
    obtain ⟨-, -, rfl⟩ := hgives
    obtain ⟨st, v, h, -, ⟨rfl, rfl⟩ | ⟨rfl | rfl, rfl⟩⟩ | ⟨-, -, -, h⟩ | ⟨-, -, -, -, h⟩ | ⟨-, -, -, h⟩ :=
      decoderByte_cases b d <;> rw [h]
    · exact ⟨rfl, le_rfl⟩
    all_goals exact ⟨rfl, Nat.zero_le _⟩

/-- Settles O41: the operation of one instance answers once; a length is at most `ECAP` or `DW`, and both fit by
the invariant. -/
theorem oneResponsePerOperation : Obligations.OneResponsePerOperation := by
  intro i s t h
  cases hi : isEncoderOp i with
  | true =>
    obtain ⟨e, r, hgives, rfl⟩ := (exec_encoderOp_next hi).mp h
    obtain ⟨hstatus, hvalue⟩ := hgives.response
    refine ⟨r, rfl, responseOf_respond _ r, hstatus, fun hinv => decide_eq_true ?_, rfl, rfl⟩
    obtain ⟨hecap, -⟩ := hinv.params
    omega
  | false =>
    obtain ⟨d, r, hgives, rfl⟩ := (exec_decoderOp_next hi).mp h
    obtain ⟨hstatus, hvalue⟩ := hgives.response
    refine ⟨r, rfl, responseOf_respond _ r, hstatus, fun hinv => decide_eq_true ?_, rfl, rfl⟩
    obtain ⟨-, hsize⟩ := hinv.params
    exact ((hvalue.trans hinv.dec.cursor).trans hinv.dec.capRange).trans_lt hsize

/-- What `ENC_BYTE` makes of the registers and the phase does not depend on EBUF. -/
theorem byteTaken_otherBuffer (b : Byte) (e : Encoder) (m : Memory) :
    ∃ m', byteTaken b { e with ebuf := m } = { byteTaken b e with ebuf := m' } := by
  unfold byteTaken
  split_ifs <;> exact ⟨_, rfl⟩

/-- With other contents of EBUF an encoder operation makes the same of the registers and the phase. -/
theorem EncoderGives.otherBuffer {ecap : Nat} {e e' : Encoder} {r : Response} {i : Instr}
    (hgives : EncoderGives ecap e e' r i) (m : Memory) :
    ∃ m', EncoderGives ecap { e with ebuf := m } { e' with ebuf := m' } r i := by
  cases i with
  | encInit =>
    obtain ⟨rfl, rfl⟩ := hgives
    exact ⟨_, rfl, rfl⟩
  | encByte b =>
    obtain ⟨hbyte, rfl⟩ := hgives
    obtain ⟨ha, hc, hm, rfl⟩ := (encoderByte_ok ..).mp hbyte
    obtain ⟨m', h⟩ := byteTaken_otherBuffer b e m
    exact ⟨m', (encoderByte_ok ..).mpr ⟨ha, hc, hm, h.symm⟩, rfl⟩
  | encFinish =>
    obtain ⟨hfinish, rfl⟩ := hgives
    obtain ⟨ha, hm, hc, rfl⟩ := (encoderFinish_ok ..).mp hfinish
    exact ⟨_, (encoderFinish_ok ..).mpr ⟨ha, hm, hc, rfl⟩, rfl⟩
  | decInit cap => cases hgives
  | decByte b => cases hgives

section
variable (b : Byte) (d : Decoder) (m : Memory)

theorem decodeLiteral_otherBuffer : ∃ m', decodeLiteral b { d with dbuf := m } =
    ({ (decodeLiteral b d).1 with dbuf := m' }, (decodeLiteral b d).2) := by
  unfold decodeLiteral bufferFull
  dsimp only
  split_ifs <;> exact ⟨_, rfl⟩

theorem decodeMarker_otherBuffer : ∃ m', decodeMarker b { d with dbuf := m } =
    ({ (decodeMarker b d).1 with dbuf := m' }, (decodeMarker b d).2) := by
  unfold decodeMarker bufferFull delimiterOwed
  dsimp only
  split_ifs <;> exact ⟨_, rfl⟩

/-- What `DEC_BYTE` makes of the registers and the phase, and its response, do not depend on DBUF. -/
theorem decoderByte_otherBuffer : ∃ m', decoderByte b { d with dbuf := m } =
    ({ (decoderByte b d).1 with dbuf := m' }, (decoderByte b d).2) := by
  unfold decoderByte
  split_ifs
  · exact decodeMarker_otherBuffer b d m
  · exact decodeLiteral_otherBuffer b d m

end

/-- With other contents of DBUF a decoder operation makes the same of the registers and the phase. -/
theorem DecoderGives.otherBuffer {size : Nat} {d d' : Decoder} {r : Response} {i : Instr}
    (hgives : DecoderGives size d d' r i) (m : Memory) :
    ∃ m', DecoderGives size { d with dbuf := m } { d' with dbuf := m' } r i := by
  cases i with
  | encInit => cases hgives
  | encByte b => cases hgives
  | encFinish => cases hgives
  | decInit cap =>
    obtain ⟨hcap, rfl, rfl⟩ := hgives
    exact ⟨_, hcap, rfl, rfl⟩
  | decByte b =>
    obtain ⟨hp, rfl, rfl⟩ := hgives
    obtain ⟨m', h⟩ := decoderByte_otherBuffer b d m
    exact ⟨m', hp, by rw [h], by rw [h]⟩

/-- No precondition of 60_exceptions.md R211 speaks of a buffer's contents. -/
theorem brokenPrecondition_withBuffers (i : Instr) (s : State) (ebuf dbuf : Memory) (f : Fault) :
    brokenPrecondition i (s.withBuffers ebuf dbuf) f ↔ brokenPrecondition i s f := by
  cases f <;> exact Iff.rfl

/-- Settles O43: neither the preconditions nor what an operation makes of the registers speak of the contents. -/
theorem buffersNeverInfluence : Obligations.BuffersNeverInfluence := by
  refine fun i s ebuf dbuf => ⟨fun f => ?fault, fun t h => ?next⟩
  case fault => rw [exec_fault_iff, exec_fault_iff, brokenPrecondition_withBuffers]
  case next =>
    cases hi : isEncoderOp i with
    | true =>
      obtain ⟨e, r, hgives, rfl⟩ := (exec_encoderOp_next hi).mp h
      obtain ⟨m', hgives'⟩ := hgives.otherBuffer ebuf
      exact ⟨m', dbuf, (exec_encoderOp_next hi).mpr ⟨_, r, hgives', rfl⟩⟩
    | false =>
      obtain ⟨d, r, hgives, rfl⟩ := (exec_decoderOp_next hi).mp h
      obtain ⟨m', hgives'⟩ := hgives.otherBuffer dbuf
      exact ⟨ebuf, m', (exec_decoderOp_next hi).mpr ⟨_, r, hgives', rfl⟩⟩

/-- From phase `Uninit` an encoder operation that completes reads no register: it is `ENC_INIT`. -/
theorem EncoderGives.otherRegs {ecap : Nat} {e e' : Encoder} {r : Response} {i : Instr}
    (hgives : EncoderGives ecap e e' r i) (hp : e.ephase = .uninit) (emark ecur : Nat) (ecode : Byte) :
    EncoderGives ecap { e with emark := emark, ecur := ecur, ecode := ecode } e' r i := by
  cases i with
  | encInit => exact hgives
  | encByte b =>
    obtain ⟨ha, -⟩ := (encoderByte_ok ..).mp hgives.1
    simp [hp] at ha
  | encFinish =>
    obtain ⟨ha, -⟩ := (encoderFinish_ok ..).mp hgives.1
    simp [hp] at ha
  | decInit cap => cases hgives
  | decByte b => cases hgives

/-- From phase `Uninit` a decoder operation that completes reads no register: it is `DEC_INIT`. -/
theorem DecoderGives.otherRegs {size : Nat} {d d' : Decoder} {r : Response} {i : Instr}
    (hgives : DecoderGives size d d' r i) (hp : d.dphase = .uninit) (dcap dw : Nat) (drem : Byte) (dmand : Bool) :
    DecoderGives size { d with dcap := dcap, dw := dw, drem := drem, dmand := dmand } d' r i := by
  cases i with
  | encInit => cases hgives
  | encByte b => cases hgives
  | encFinish => cases hgives
  | decInit cap => exact hgives
  | decByte b =>
    obtain ⟨hready, -⟩ := hgives
    simp [hp] at hready

/-- In phase `Uninit` no precondition of the encoder's operations speaks of its registers. -/
theorem brokenPrecondition_withEncRegs {s : State} (hp : s.enc.ephase = .uninit) (i : Instr) (emark ecur : Nat)
    (ecode : Byte) (f : Fault) :
    brokenPrecondition i (s.withEncRegs emark ecur ecode) f ↔ brokenPrecondition i s f := by
  cases f with
  | encBufferOverrun => simp [brokenPrecondition, State.withEncRegs, hp]
  | encNotActive => exact Iff.rfl
  | decNotReady => exact Iff.rfl
  | decCapTooLarge => exact Iff.rfl

/-- No precondition speaks of the decoder's registers. -/
theorem brokenPrecondition_withDecRegs (i : Instr) (s : State) (dcap dw : Nat) (drem : Byte) (dmand : Bool)
    (f : Fault) : brokenPrecondition i (s.withDecRegs dcap dw drem dmand) f ↔ brokenPrecondition i s f := by
  cases f <;> exact Iff.rfl

theorem exec_withEncRegs {i : Instr} {s t : State} (hp : s.enc.ephase = .uninit) (h : exec i s = .next t)
    (emark ecur : Nat) (ecode : Byte) :
    exec i (s.withEncRegs emark ecur ecode) = .next t ∨
      (t.enc.ephase = .uninit ∧
        exec i (s.withEncRegs emark ecur ecode) = .next (t.withEncRegs emark ecur ecode)) := by
  cases hi : isEncoderOp i with
  | true =>
    obtain ⟨e, r, hgives, rfl⟩ := (exec_encoderOp_next hi).mp h
    exact .inl ((exec_encoderOp_next hi).mpr ⟨e, r, hgives.otherRegs hp emark ecur ecode, rfl⟩)
  | false =>
    obtain ⟨d, r, hgives, rfl⟩ := (exec_decoderOp_next hi).mp h
    exact .inr ⟨hp, (exec_decoderOp_next hi).mpr ⟨d, r, hgives, rfl⟩⟩

theorem exec_withDecRegs {i : Instr} {s t : State} (hp : s.dec.dphase = .uninit) (h : exec i s = .next t)
    (dcap dw : Nat) (drem : Byte) (dmand : Bool) :
    exec i (s.withDecRegs dcap dw drem dmand) = .next t ∨
      (t.dec.dphase = .uninit ∧
        exec i (s.withDecRegs dcap dw drem dmand) = .next (t.withDecRegs dcap dw drem dmand)) := by
  cases hi : isEncoderOp i with
  | true =>
    obtain ⟨e, r, hgives, rfl⟩ := (exec_encoderOp_next hi).mp h
    exact .inr ⟨hp, (exec_encoderOp_next hi).mpr ⟨e, r, hgives, rfl⟩⟩
  | false =>
    obtain ⟨d, r, hgives, rfl⟩ := (exec_decoderOp_next hi).mp h
    exact .inl ((exec_decoderOp_next hi).mpr ⟨d, r, hgives.otherRegs hp dcap dw drem dmand, rfl⟩)

/-- Settles O38: in phase `Uninit` the instance's own operations read none of its registers and initialise them
all, and the other instance's operations leave them there. -/
theorem powerOnRegistersNeverMatter : Obligations.PowerOnRegistersNeverMatter := by
  refine fun i s => ⟨fun hp emark ecur ecode => ⟨fun f => ?_, fun t h => exec_withEncRegs hp h emark ecur ecode⟩,
    fun hp dcap dw drem dmand => ⟨fun f => ?_, fun t h => exec_withDecRegs hp h dcap dw drem dmand⟩⟩
  · rw [exec_fault_iff, exec_fault_iff, brokenPrecondition_withEncRegs hp]
  · rw [exec_fault_iff, exec_fault_iff, brokenPrecondition_withDecRegs]

end Sys2Proof.Machine
end

section
/-! SUPPORT. The lengths of frames and the capacity functions (41_encoder.md R113, 44_capacity_functions.md R191 to
R196): how many full runs a payload of given length can have. -/

namespace Sys2Proof.Machine

/-- `EncLen` is the length of `Stuff`, run by run (41_encoder.md R113). -/
theorem stuff_length (b : List Byte) : (stuff b).length = encLen b := by
  induction b using payload_induction with
  | last q hq hl =>
    rw [stuff_last q hq hl, encLen_last q hq hl]
    simp [runBytes]
  | zero q bs hq hl ih =>
    rw [stuff_zero q bs hq hl, encLen_zero q bs hq hl, List.length_append, ih]
    rfl
  | full q bs hq hl ih =>
    rw [stuff_full q bs hq hl, encLen_full q bs hq hl, List.length_cons, List.length_append, ih, hl]
    omega

theorem length_add_two_le_encLen (b : List Byte) : b.length + 2 ≤ encLen b := Nat.le_add_right ..

/-- `SafeEncodeLen` bounds the frame (44_capacity_functions.md R194): each full run has 254 bytes. -/
theorem encLen_le_safeEncodeLen (b : List Byte) : encLen b ≤ safeEncodeLen b.length := by
  unfold safeEncodeLen
  induction b using payload_induction with
  | last q hq hl =>
    rw [encLen_last q hq hl]
    omega
  | zero q bs hq hl ih =>
    rw [encLen_zero q bs hq hl, List.length_append, List.length_cons]
    omega
  | full q bs hq hl ih =>
    rw [encLen_full q bs hq hl, List.length_append, hl, Config.runCap]
    omega

/-- Without a 0x00 the payload is one segment, cut into as many full runs as fit. -/
theorem encLen_nonZero {b : List Byte} (hb : nonZero b) : encLen b = safeEncodeLen b.length := by
  simp only [encLen, fullRunCount, segments_nonZero b hb, List.map_cons, List.map_nil, List.sum_cons, List.sum_nil,
    safeEncodeLen, Config.runCap]
  omega

/-- A 0x00 of the payload is in no full run, so one byte less is there for them. -/
theorem encLen_le_of_delim_mem {b : List Byte} (h0 : Config.delim ∈ b) :
    encLen b ≤ b.length + (b.length - 1) / 254 + 2 := by
  induction b using payload_induction with
  | last q hq hl => exact absurd rfl (hq _ h0)
  | zero q bs hq hl ih =>
    have hrest := encLen_le_safeEncodeLen bs
    rw [safeEncodeLen] at hrest
    rw [encLen_zero q bs hq hl, List.length_append, List.length_cons]
    omega
  | full q bs hq hl ih =>
    have hmem : Config.delim ∈ bs := (List.mem_append.mp h0).resolve_left fun h => hq _ h rfl
    have hrest := ih hmem
    have hpos : 0 < bs.length := List.length_pos_of_mem hmem
    rw [encLen_full q bs hq hl, List.length_append, hl, Config.runCap]
    omega

/-- `MaxEncodeLen` is one less than `SafeEncodeLen` on positive multiples of 254 (44_capacity_functions.md R194). -/
theorem safeEncodeLen_of_dvd {d : Nat} (hd : 1 ≤ d) (hdvd : d % 254 = 0) :
    safeEncodeLen d = maxEncodeLen d + 1 := by
  rw [safeEncodeLen, maxEncodeLen, if_neg (by omega)]
  omega

/-- Elsewhere the two are the same. -/
theorem safeEncodeLen_of_not_dvd {d : Nat} (hd : d % 254 ≠ 0 ∨ d = 0) : safeEncodeLen d = maxEncodeLen d := by
  unfold safeEncodeLen maxEncodeLen
  split_ifs <;> omega

theorem safeEncodeLen_mono {d e : Nat} (h : d ≤ e) : safeEncodeLen d ≤ safeEncodeLen e := by
  unfold safeEncodeLen
  omega

theorem encLen_zeros (d : Nat) : encLen (List.replicate d Config.delim) = d + 2 := by
  induction d with
  | zero => rfl
  | succ d ih =>
    have h := encLen_zero [] (List.replicate d Config.delim) (List.forall_mem_nil _) (by decide)
    rw [List.nil_append] at h
    rw [List.replicate_succ, h, ih, List.length_nil]
    omega

/-- Settles O48: the frame's length, run by run, and the bound on its full runs. -/
theorem encLenIsTheFrameLength : Obligations.EncLenIsTheFrameLength :=
  fun b => ⟨(stuff_length b).symm, length_add_two_le_encLen b, encLen_le_safeEncodeLen b⟩

/-- Settles O58: outside the family either the length is not a positive multiple of 254, where the two bounds
agree, or a 0x00 takes a byte from the full runs. -/
theorem maxEncodeLenFallsShortOnce : Obligations.MaxEncodeLenFallsShortOnce := by
  refine fun b => ⟨fun hb => ?bound, fun hpos hdvd hb => ?short⟩
  case bound =>
    by_cases hlen : b.length % 254 ≠ 0 ∨ b.length = 0
    · exact (safeEncodeLen_of_not_dvd hlen) ▸ encLen_le_safeEncodeLen b
    · obtain ⟨hdvd, hpos⟩ := not_or.mp hlen
      have h0 : Config.delim ∈ b := by
        by_contra h0
        exact hb ⟨Nat.pos_of_ne_zero hpos, not_not.mp hdvd, fun x hx (hzero : x = Config.delim) => h0 (hzero ▸ hx)⟩
      have hbound := encLen_le_of_delim_mem h0
      have hsafe := safeEncodeLen_of_dvd (Nat.pos_of_ne_zero hpos) (not_not.mp hdvd)
      rw [safeEncodeLen] at hsafe
      omega
  case short => rw [encLen_nonZero hb, safeEncodeLen_of_dvd hpos hdvd]

/-- Settles O59: the bound counts the full runs that fit, and compares with `MaxEncodeLen` by the remainder modulo
254. -/
theorem safeEncodeLenIsLeast : Obligations.SafeEncodeLenIsLeast := by
  refine ⟨fun b => ⟨encLen_le_safeEncodeLen b, encLen_nonZero, ?decoded⟩,
    fun d => ⟨fun hd => ?same, fun hd hdvd => ?above⟩, fun d e => safeEncodeLen_mono, encLen_zeros⟩
  case decoded =>
    have hlen := length_add_two_le_encLen b
    unfold maxDecodeLen
    split_ifs <;> omega
  case same => exact safeEncodeLen_of_not_dvd (hd.imp_left fun h hmod => h (Nat.dvd_of_mod_eq_zero hmod))
  case above => exact safeEncodeLen_of_dvd hd (Nat.mod_eq_zero_of_dvd hdvd)

end Sys2Proof.Machine
end

section
/-! SUPPORT. Frames as runs of the grammar (30_encoding.md R71 to R75): `Stuff` is the frame of the runs it makes, and
`Unstuff` of a frame of runs is what they stand for. -/

namespace Sys2Proof.Machine

/-- A run of the grammar: at most 254 non-zero literals (30_encoding.md R71). -/
def LegalRun (q : List Byte) : Prop := q.length ≤ Config.runCap ∧ nonZero q

theorem legalRuns_iff (runs : List (List Byte)) :
    legalRuns runs = true ↔ runs ≠ [] ∧ ∀ q ∈ runs, LegalRun q := by
  simp [legalRuns, LegalRun, List.all_eq_true]

section
variable {q : List Byte}

/-- The marker of a run is one more than its literals (30_encoding.md R71). -/
theorem marker_toNat (hl : q.length ≤ Config.runCap) : (BitVec.ofNat 8 (q.length + 1)).toNat = q.length + 1 := by
  rw [BitVec.toNat_ofNat]
  exact Nat.mod_eq_of_lt (Nat.succ_lt_succ (hl.trans_lt (by decide)))

theorem marker_ne_delim (hl : q.length ≤ Config.runCap) : BitVec.ofNat 8 (q.length + 1) ≠ Config.delim := by
  intro h0
  have hm := marker_toNat hl
  rw [h0] at hm
  exact absurd hm (Nat.succ_ne_zero _).symm

/-- Only the marker of a full run is 0xFF. -/
theorem marker_beq_codeFull (hl : q.length ≤ Config.runCap) :
    (BitVec.ofNat 8 (q.length + 1) == Config.codeFull) = (q.length == Config.runCap) := by
  rw [Bool.eq_iff_iff, beq_iff_eq, beq_iff_eq, ← BitVec.toNat_inj, marker_toNat hl]
  exact Nat.succ_inj

theorem runBytes_nonZero (h : LegalRun q) : nonZero (runBytes q) :=
  List.forall_mem_cons.mpr ⟨marker_ne_delim h.1, h.2⟩

theorem runBytes_full (hl : q.length = Config.runCap) : runBytes q = Config.codeFull :: q := by
  rw [runBytes, hl]
  rfl

end

theorem frameBytes_cons (q : List Byte) (runs : List (List Byte)) :
    frameBytes (q :: runs) = runBytes q ++ frameBytes runs := by
  simp [frameBytes]

theorem lastRunNotFull_cons (q : List Byte) {runs : List (List Byte)} (h : runs ≠ []) :
    lastRunNotFull (q :: runs) = lastRunNotFull runs := by
  rw [lastRunNotFull, List.getLast?_cons_of_ne_nil h, lastRunNotFull]

/-- What is written before the next marker (30_encoding.md R72): the delimiter owed after a run that is not full. -/
theorem payloadOfRuns_cons (q : List Byte) {runs : List (List Byte)} (h : runs ≠ []) :
    payloadOfRuns (q :: runs) = q ++ (owedBytes (q.length == Config.runCap) ++ payloadOfRuns runs) := by
  obtain ⟨r, rs, rfl⟩ := List.exists_cons_of_ne_nil h
  rw [payloadOfRuns, owedBytes]
  simp only [beq_iff_eq]
  split_ifs <;> rfl

/-- The runs of a canonical frame that stand for `b`: the last of them is not full. -/
structure CanonicalRuns (runs : List (List Byte)) (b : List Byte) : Prop where
  legal : legalRuns runs = true
  lastNotFull : lastRunNotFull runs = true
  frame : stuff b = frameBytes runs
  payload : payloadOfRuns runs = b

/-- One run more in front. -/
theorem CanonicalRuns.cons {runs : List (List Byte)} {b b' q : List Byte} (h : CanonicalRuns runs b)
    (hq : LegalRun q) (hstuff : stuff b' = runBytes q ++ stuff b)
    (hb : q ++ (owedBytes (q.length == Config.runCap) ++ b) = b') : CanonicalRuns (q :: runs) b' := by
  obtain ⟨hne, hruns⟩ := (legalRuns_iff runs).mp h.legal
  exact
    { legal := (legalRuns_iff _).mpr ⟨List.cons_ne_nil _ _, List.forall_mem_cons.mpr ⟨hq, hruns⟩⟩
      lastNotFull := (lastRunNotFull_cons q hne).trans h.lastNotFull
      frame := by rw [hstuff, h.frame, frameBytes_cons]
      payload := by rw [payloadOfRuns_cons q hne, h.payload, hb] }

/-- `Stuff(b)` is canonical, by induction over the payload's runs. -/
theorem exists_canonicalRuns (b : List Byte) : ∃ runs, CanonicalRuns runs b := by
  induction b using payload_induction with
  | last q hq hl =>
    refine ⟨[q], (legalRuns_iff _).mpr ⟨List.cons_ne_nil _ _, ?_⟩, bne_iff_ne.mpr hl.ne, ?_, rfl⟩
    · exact List.forall_mem_singleton.mpr ⟨hl.le, hq⟩
    · rw [stuff_last q hq hl, frameBytes_cons]
      rfl
  | zero q bs hq hl ih =>
    obtain ⟨runs, h⟩ := ih
    refine ⟨q :: runs, h.cons ⟨hl.le, hq⟩ (stuff_zero q bs hq hl) ?_⟩
    rw [beq_false_of_ne hl.ne]
    rfl
  | full q bs hq hl ih =>
    obtain ⟨runs, h⟩ := ih
    refine ⟨q :: runs, h.cons ⟨hl.le, hq⟩ ?_ ?_⟩
    · rw [stuff_full q bs hq hl, runBytes_full hl, List.cons_append]
    · rw [hl]
      rfl

/-- Settles O49: the runs are those the payload is cut into. -/
theorem stuffIsCanonical : Obligations.StuffIsCanonical := by
  intro b
  obtain ⟨runs, h⟩ := exists_canonicalRuns b
  exact ⟨runs, h.legal, h.lastNotFull, h.frame, h.payload⟩

/-- The shape `Unstuff` asks for: non-zero bytes and a terminator (30_encoding.md R75). -/
theorem frameShaped_iff (f : List Byte) : frameShaped f = true ↔ ∃ g, f = g ++ [Config.delim] ∧ nonZero g := by
  constructor
  · intro h
    simp only [frameShaped, Bool.and_eq_true, beq_iff_eq, List.all_eq_true, bne_iff_ne] at h
    exact ⟨f.dropLast, (List.dropLast_append_getLast? _ h.1).symm, h.2⟩
  · rintro ⟨g, rfl, hg⟩
    simpa [frameShaped] using hg

/-- The turn of `Unstuff` that meets the terminator. -/
theorem unstuffLoop_terminator (n : Nat) (mand : Bool) (f : List Byte) :
    unstuffLoop (n + 1) mand (Config.delim :: f) = some [] := by
  simp [unstuffLoop]

/-- A turn of `Unstuff` at a marker: the owed delimiter, the literals, and the payload of the rest. -/
theorem unstuffLoop_marker (n : Nat) (mand : Bool) {m : Byte} (hm : m ≠ Config.delim) (f : List Byte) :
    unstuffLoop (n + 1) mand (m :: f) =
      if f.length ≤ m.toNat - 1 then none
      else (unstuffLoop n (m == Config.codeFull) (f.drop (m.toNat - 1))).map fun out =>
        owedBytes mand ++ (f.take (m.toNat - 1) ++ out) := by
  rw [unstuffLoop, if_neg hm]
  by_cases hlen : f.length ≤ m.toNat - 1
  · rw [if_pos hlen, if_pos hlen]
  · rw [if_neg hlen, if_neg hlen]
    cases unstuffLoop n (m == Config.codeFull) (f.drop (m.toNat - 1)) <;> rfl

/-- A turn of `Unstuff` at a run of the grammar that is not the end. -/
theorem unstuffLoop_run (n : Nat) (mand : Bool) {q f : List Byte} (hq : LegalRun q) (hf : f ≠ []) :
    unstuffLoop (n + 1) mand (runBytes q ++ f) =
      (unstuffLoop n (q.length == Config.runCap) f).map fun out => owedBytes mand ++ (q ++ out) := by
  have hpos : 0 < f.length := List.length_pos_iff.mpr hf
  rw [runBytes, List.cons_append, unstuffLoop_marker n mand (marker_ne_delim hq.1), marker_toNat hq.1,
    marker_beq_codeFull hq.1, Nat.add_sub_cancel, List.drop_left, List.take_left, List.length_append,
    if_neg (by omega)]

/-- `Unstuff` of runs, with a turn for each and one for the terminator. -/
theorem unstuffLoop_frameBytes {runs : List (List Byte)} (hne : runs ≠ []) (hruns : ∀ q ∈ runs, LegalRun q)
    (mand : Bool) {n : Nat} (hn : runs.length < n) :
    unstuffLoop n mand (frameBytes runs) = some (owedBytes mand ++ payloadOfRuns runs) := by
  induction runs generalizing mand n with
  | nil => exact absurd rfl hne
  | cons q runs ih =>
    obtain ⟨k, rfl⟩ := Nat.exists_eq_add_of_lt hn
    obtain ⟨hq, hruns⟩ := List.forall_mem_cons.mp hruns
    rw [frameBytes_cons, unstuffLoop_run _ mand hq (by simp [frameBytes])]
    cases runs with
    | nil =>
      rw [List.length_singleton, Nat.add_comm 1 k, frameBytes, List.map_nil, List.flatten_nil, List.nil_append,
        unstuffLoop_terminator]
      simp [payloadOfRuns]
    | cons r rs =>
      rw [ih (List.cons_ne_nil _ _) hruns _ (by simp only [List.length_cons]; omega),
        payloadOfRuns_cons q (List.cons_ne_nil r rs)]
      rfl

/-- A frame has more bytes than runs. -/
theorem length_lt_frameBytes_length (runs : List (List Byte)) : runs.length < (frameBytes runs).length := by
  induction runs with
  | nil => exact Nat.zero_lt_one
  | cons q runs ih =>
    rw [frameBytes_cons, List.length_append, runBytes, List.length_cons, List.length_cons]
    omega

theorem frameShaped_frameBytes {runs : List (List Byte)} (hruns : ∀ q ∈ runs, LegalRun q) :
    frameShaped (frameBytes runs) = true := by
  refine (frameShaped_iff _).mpr ⟨_, rfl, fun x hx => ?_⟩
  obtain ⟨bytes, hbytes, hx⟩ := List.mem_flatten.mp hx
  obtain ⟨q, hq, rfl⟩ := List.mem_map.mp hbytes
  exact runBytes_nonZero (hruns q hq) x hx

/-- Settles O50: the frame has the shape `Unstuff` asks for, and bytes enough for its turns. -/
theorem unstuffOfRuns : Obligations.UnstuffOfRuns := by
  intro runs h
  obtain ⟨hne, hruns⟩ := (legalRuns_iff runs).mp h
  rw [unstuff, if_pos (frameShaped_frameBytes hruns)]
  exact unstuffLoop_frameBytes hne hruns true (length_lt_frameBytes_length runs)

/-- Settles O51: `Stuff(b)` is the frame of runs that stand for `b`. -/
theorem unstuffOfStuff : Obligations.UnstuffOfStuff := by
  intro b
  obtain ⟨runs, h⟩ := exists_canonicalRuns b
  rw [h.frame, unstuffOfRuns runs h.legal, h.payload]

end Sys2Proof.Machine
end

section
/-! SUPPORT. The frame the encoder builds (41_encoder.md R105, R110, R112): what the rest of a payload makes of an
open run whose literals are known, by induction over the bytes still to come. -/

namespace Sys2Proof.Machine

section
variable {m n : Memory} {i : Nat} {bs cs : List Byte}

theorem Memory.holdsFrom_append :
    m.holdsFrom i (bs ++ cs) ↔ m.holdsFrom i bs ∧ m.holdsFrom (i + bs.length) cs := by
  induction bs generalizing i with
  | nil => simp [Memory.holdsFrom]
  | cons b bs ih =>
    simp only [List.cons_append, Memory.holdsFrom, ih, and_assoc, List.length_cons]
    rw [Nat.add_right_comm, Nat.add_assoc]

/-- A buffer that has the same cells there holds the same bytes there. -/
theorem Memory.holdsFrom.congr (h : m.holdsFrom i bs)
    (hsame : ∀ a, i ≤ a → a < i + bs.length → n.read a = m.read a) : n.holdsFrom i bs := by
  induction bs generalizing i with
  | nil => trivial
  | cons b bs ih =>
    rw [List.length_cons] at hsame
    obtain ⟨hb, hbs⟩ := h
    exact ⟨(hsame i le_rfl (by omega)).trans hb, ih hbs fun a hlow hhigh => hsame a (by omega) (by omega)⟩

end

/-- A run is under construction whose literals so far are `p`, in the cells behind its reserved one. -/
structure RunHolds (p : List Byte) (e : Encoder) : Prop where
  active : e.ephase = .active
  nonZero : nonZero p
  cursor : e.ecur = e.emark + (p.length + 1)
  code : e.ecode = BitVec.ofNat 8 (p.length + 1)
  literals : e.ebuf.holdsFrom (e.emark + 1) p

/-- From `s` to `t` a frame was finished: `f` from the reserved cell on, the cells below it as they were, and the
number of cells in the response. -/
structure Builds (f : List Byte) (s t : State) : Prop where
  final : t.enc.ephase = .final
  frame : t.enc.ebuf.holdsFrom s.enc.emark f
  below : ∀ a, a < s.enc.emark → t.enc.ebuf.read a = s.enc.ebuf.read a
  response : responseOf t = ⟨.done, s.enc.emark + f.length⟩

/-- The operations of the rest of a frame: the bytes still to come, then `ENC_FINISH` (41_encoder.md R105). -/
abbrev restOps (bs : List Byte) : List Instr := encChunkOps bs ++ [.encFinish]

/-- The rest of a frame completes with `Stuff(b)` if there are cells for it, and faults if there are not. -/
structure Encodes (b bs : List Byte) (s : State) : Prop where
  fits : s.enc.emark + encLen b ≤ s.params.ecap → ∃ t, runOps (restOps bs) s = .next t ∧ Builds (stuff b) s t
  overruns : s.params.ecap < s.enc.emark + encLen b → runOps (restOps bs) s = .fault .encBufferOverrun

section
variable {p bs b b' : List Byte} {x : Byte} {s : State} {e : Encoder} {r : Response}

theorem runOps_restOps_nil (s : State) : runOps (restOps []) s = onNext (exec .encFinish s) .next := rfl

theorem runOps_restOps_cons (x : Byte) (bs : List Byte) (s : State) :
    runOps (restOps (x :: bs)) s = onNext (exec (.encByte x) s) (runOps (restOps bs)) := rfl

/-- A new run has no literals yet. -/
theorem RunHolds.nil (ha : e.ephase = .active) (hcur : e.ecur = e.emark + 1) (hcode : e.ecode = 1#8) :
    RunHolds [] e :=
  ⟨ha, List.forall_mem_nil _, hcur, hcode, trivial⟩

theorem RunHolds.code_add_one (h : RunHolds p e) : e.ecode + 1#8 = BitVec.ofNat 8 (p.length + 1 + 1) := by
  rw [h.code, BitVec.ofNat_add (p.length + 1) 1]

/-- A copied literal is one more literal of the run (41_encoder.md R102). -/
theorem RunHolds.literalCopied (h : RunHolds p e) (hx : x ≠ Config.delim) :
    RunHolds (p ++ [x]) (literalCopied x e) where
  active := h.active
  nonZero := List.forall_mem_append.mpr ⟨h.nonZero, List.forall_mem_singleton.mpr hx⟩
  cursor := by
    rw [List.length_append]
    exact congrArg (· + 1) h.cursor
  code := by
    rw [List.length_append]
    exact h.code_add_one
  literals := by
    have hcur := h.cursor
    refine Memory.holdsFrom_append.mpr ⟨h.literals.congr fun a _ hlt => ?_, ?_, trivial⟩
    · rw [literalCopied_read, if_neg (by omega)]
    · rw [literalCopied_read]
      exact if_pos (show e.emark + 1 + p.length = e.ecur by omega)

/-- The literal that fills the run is its 254th (41_encoder.md R107). -/
theorem RunHolds.full_iff (h : RunHolds p e) (hl : p.length < Config.runCap) :
    e.ecode + 1#8 = Config.codeFull ↔ p.length + 1 = Config.runCap := by
  have hm := marker_toNat (q := p ++ [Config.delim]) (by simpa using hl)
  rw [List.length_append, List.length_singleton] at hm
  rw [h.code_add_one, ← BitVec.toNat_inj, hm]
  exact Nat.succ_inj

/-- A closed run stands from its reserved cell on (41_encoder.md R106). -/
theorem RunHolds.runClosed_holdsFrom (h : RunHolds p e) :
    (runClosed e).ebuf.holdsFrom e.emark (runBytes p) := by
  have hcur := h.cursor
  refine ⟨?_, h.literals.congr fun a hlow hhigh => ?_⟩
  · rw [runClosed_read, if_neg (by omega), if_pos rfl, h.code]
  · rw [runClosed_read, if_neg (by omega), if_neg (by omega)]

/-- The last run and the terminator stand from the reserved cell on (41_encoder.md R103). -/
theorem RunHolds.frameTerminated_holdsFrom (h : RunHolds p e) :
    (frameTerminated e).ebuf.holdsFrom e.emark (runBytes p ++ [Config.delim]) := by
  have hcur := h.cursor
  refine Memory.holdsFrom_append.mpr ⟨⟨?_, h.literals.congr fun a hlow hhigh => ?_⟩, ?_, trivial⟩
  · rw [frameTerminated_read_emark _ (by omega), h.code]
  · exact frameTerminated_read_other _ _ (by omega) (by omega)
  · rw [show e.emark + (runBytes p).length = e.ecur from hcur.symm]
    exact frameTerminated_read_ecur e

/-- An `ENC_BYTE` without a cell ends the run of the rest. -/
theorem Encodes.of_fault (hexec : exec (.encByte x) s = .fault .encBufferOverrun)
    (hlen : s.params.ecap < s.enc.emark + encLen b) : Encodes b (x :: bs) s where
  fits hfit := absurd hfit hlen.not_ge
  overruns _ := by
    rw [runOps_restOps_cons, hexec, onNext_fault]

/-- An `ENC_BYTE` that keeps the reserved cell and what stands below it leaves the frame to the rest. -/
theorem Encodes.of_literal (hexec : exec (.encByte x) s = .next ({ s with enc := e }.respond r))
    (hmark : e.emark = s.enc.emark) (hbelow : ∀ a, a < s.enc.emark → e.ebuf.read a = s.enc.ebuf.read a)
    (h : Encodes b bs ({ s with enc := e }.respond r)) : Encodes b (x :: bs) s := by
  have hrun : runOps (restOps (x :: bs)) s = runOps (restOps bs) ({ s with enc := e }.respond r) := by
    rw [runOps_restOps_cons, hexec, onNext_next]
  obtain ⟨hfits, hoverruns⟩ := h
  simp only [State.respond_enc, State.respond_params, hmark] at hfits hoverruns
  refine ⟨fun hfit => ?_, fun hlen => hrun.trans (hoverruns hlen)⟩
  obtain ⟨t, ht, hbuilds⟩ := hfits hfit
  refine ⟨t, hrun.trans ht, hbuilds.final, hmark ▸ hbuilds.frame, fun a ha => ?_, hmark ▸ hbuilds.response⟩
  exact (hbuilds.below a (hmark.symm ▸ ha)).trans (hbelow a ha)

/-- An `ENC_BYTE` that closes the run `p` puts it in front of the frame of the rest. -/
theorem Encodes.of_runClosed (h : RunHolds p e)
    (hexec : exec (.encByte x) s = .next ({ s with enc := runClosed e }.respond r))
    (hmark : e.emark = s.enc.emark) (hbelow : ∀ a, a < s.enc.emark → e.ebuf.read a = s.enc.ebuf.read a)
    (hstuff : stuff b' = runBytes p ++ stuff b) (hrest : Encodes b bs ({ s with enc := runClosed e }.respond r)) :
    Encodes b' (x :: bs) s := by
  have hrun : runOps (restOps (x :: bs)) s = runOps (restOps bs) ({ s with enc := runClosed e }.respond r) := by
    rw [runOps_restOps_cons, hexec, onNext_next]
  have hnext : (runClosed e).emark = s.enc.emark + (runBytes p).length := by
    rw [← hmark]
    exact h.cursor
  have hlen : encLen b' = (runBytes p).length + encLen b := by
    rw [← stuff_length, hstuff, List.length_append, stuff_length]
  obtain ⟨hfits, hoverruns⟩ := hrest
  simp only [State.respond_enc, State.respond_params, hnext, Nat.add_assoc, ← hlen] at hfits hoverruns
  refine ⟨fun hfit => ?_, fun hlen => hrun.trans (hoverruns hlen)⟩
  obtain ⟨t, ht, hfinal, hframe, hkept, hresponse⟩ := hfits hfit
  simp only [State.respond_enc, hnext] at hframe hkept hresponse
  refine ⟨t, hrun.trans ht, hfinal, ?frame, fun a ha => ?below, ?response⟩
  case frame =>
    rw [hstuff]
    refine Memory.holdsFrom_append.mpr ⟨?_, hframe⟩
    exact (hmark ▸ h.runClosed_holdsFrom).congr fun a _ hlt => hkept a hlt
  case below =>
    rw [hkept a (by omega), runClosed_read, if_neg (by have := h.cursor; omega), if_neg (by omega), hbelow a ha]
  case response => rw [hresponse, hstuff, List.length_append, Nat.add_assoc]

/-- `ENC_FINISH` ends the frame with the run `p` and the terminator (41_encoder.md R103). -/
theorem RunHolds.encodes_nil (h : RunHolds p s.enc) (hl : p.length < Config.runCap) : Encodes p [] s := by
  have hlen := encLen_last p h.nonZero hl
  have hcur := h.cursor
  refine ⟨fun hfit => ?_, fun hover => ?_⟩
  · have hexec := exec_encFinish_active s h.active (by omega) (by omega)
    refine ⟨_, by rw [runOps_restOps_nil, hexec, onNext_next], rfl, ?_, fun a ha => ?_, ?_⟩
    · rw [stuff_last p h.nonZero hl]
      exact h.frameTerminated_holdsFrom
    · exact frameTerminated_read_other _ _ (by omega) (by omega)
    · rw [responseOf_respond, stuff_length, hlen, hcur]
      rfl
  · have hexec : exec .encFinish s = .fault .encBufferOverrun :=
      (exec_fault_iff _ s _).mpr ⟨h.active, .inr ⟨rfl, .inr (by omega)⟩⟩
    rw [runOps_restOps_nil, hexec, onNext_fault]

/-- The rest of a frame is encoded behind the run under construction: a 0x00 closes the run, the 254th literal
copies and closes it, any other byte makes it longer. -/
theorem RunHolds.encodes (h : RunHolds p s.enc) (hl : p.length < Config.runCap) (bs : List Byte) :
    Encodes (p ++ bs) bs s := by
  induction bs generalizing p s with
  | nil =>
    rw [List.append_nil]
    exact h.encodes_nil hl
  | cons x bs ih =>
    have hcur := h.cursor
    have hlen := length_add_two_le_encLen (p ++ x :: bs)
    rw [List.length_append, List.length_cons] at hlen
    have hjoin : p ++ x :: bs = (p ++ [x]) ++ bs := by simp
    by_cases hx : x = Config.delim
    · subst hx
      rcases Nat.lt_or_ge s.enc.emark s.params.ecap with hm | hm
      · have hexec := exec_encByte_active (b := Config.delim) h.active (absurd rfl) fun _ => hm
        rw [byteTaken_zero] at hexec
        exact .of_runClosed h hexec rfl (fun a _ => rfl) (stuff_zero p bs h.nonZero hl)
          (ih (p := []) (.nil h.active rfl rfl) (by decide))
      · exact .of_fault ((exec_fault_iff _ s _).mpr ⟨h.active, .inl ⟨_, rfl, .inr ⟨.inl rfl, hm⟩⟩⟩) (by omega)
    · rcases Nat.lt_or_ge s.enc.ecur s.params.ecap with hc | hc
      · have hexec := exec_encByte_active (b := x) h.active (fun _ => hc) fun _ => by omega
        have hcopied := h.literalCopied hx
        have hbelow : ∀ a, a < s.enc.emark → (Machine.literalCopied x s.enc).ebuf.read a = s.enc.ebuf.read a :=
          fun a ha => by rw [literalCopied_read, if_neg (by omega)]
        by_cases hfull : p.length + 1 = Config.runCap
        · have hq : (p ++ [x]).length = Config.runCap := by rwa [List.length_append]
          rw [byteTaken_full x s.enc hx ((h.full_iff hl).mpr hfull)] at hexec
          rw [hjoin]
          refine .of_runClosed hcopied hexec rfl hbelow ?_ (ih (p := []) (.nil h.active rfl rfl) (by decide))
          rw [stuff_full _ bs hcopied.nonZero hq, runBytes_full hq, List.cons_append]
          rfl
        · rw [byteTaken_literal x s.enc (not_or.mpr ⟨hx, (h.full_iff hl).not.mpr hfull⟩)] at hexec
          rw [hjoin]
          exact .of_literal hexec rfl hbelow (ih hcopied (by rw [List.length_append, List.length_singleton]; omega))
      · exact .of_fault ((exec_fault_iff _ s _).mpr ⟨h.active, .inl ⟨_, rfl, .inl ⟨hx, hc⟩⟩⟩) (by omega)

/-- `ENC_FRAME b` from any state: `ENC_INIT` opens an empty run at cell 0 (41_encoder.md R101, R105). -/
theorem encFrame_eq (b : List Byte) (s : State) : ∃ s', s'.params = s.params ∧ s'.enc.emark = 0 ∧
    Encodes b b s' ∧ encFrame b s = onNext (runOps (restOps b) s') fun t => .next (t, responseOf t) := by
  have hencodes : Encodes ([] ++ b) b ({ s with enc := encoderInit s.enc }.respond ⟨.done, 0⟩) :=
    RunHolds.encodes (.nil rfl rfl rfl) (by decide) b
  rw [List.nil_append] at hencodes
  exact ⟨{ s with enc := encoderInit s.enc }.respond ⟨.done, 0⟩, rfl, rfl, hencodes, rfl⟩

end

/-- With enough capacity `ENC_FRAME b` completes with the frame. -/
theorem encFrame_fits {b : List Byte} {s : State} (hfit : encLen b ≤ s.params.ecap) :
    ∃ t, encFrame b s = .next (t, ⟨.done, encLen b⟩) ∧ t.enc.ebuf.holds (stuff b) ∧ t.enc.ephase = .final := by
  obtain ⟨s', hparams, hmark, hencodes, hframe⟩ := encFrame_eq b s
  obtain ⟨t, ht, hbuilds⟩ := hencodes.fits (by rwa [hmark, Nat.zero_add, hparams])
  have hholds := hbuilds.frame
  rw [hmark] at hholds
  refine ⟨t, ?_, hholds, hbuilds.final⟩
  rw [hframe, ht, onNext_next, hbuilds.response, hmark, Nat.zero_add, stuff_length]

/-- With less it faults. -/
theorem encFrame_overruns {b : List Byte} {s : State} (hover : s.params.ecap < encLen b) :
    encFrame b s = .fault .encBufferOverrun := by
  obtain ⟨s', hparams, hmark, hencodes, hframe⟩ := encFrame_eq b s
  rw [hframe, hencodes.overruns (by rwa [hmark, Nat.zero_add, hparams]), onNext_fault]

/-- Settles O46: `ENC_INIT` opens an empty run at cell 0, and the payload is all that is still to come. -/
theorem encFrameBuildsStuff : Obligations.EncFrameBuildsStuff :=
  fun _ _ => encFrame_fits

/-- Settles O47: a frame that does not fit faults, so one that completes fits. -/
theorem capacityIsExactlyEncLen : Obligations.CapacityIsExactlyEncLen := by
  refine fun b s => ⟨⟨fun ⟨r, hr⟩ => ?_, fun hfit => ?_⟩, encFrame_overruns⟩
  · by_contra hover
    rw [encFrame_overruns (Nat.not_le.mp hover)] at hr
    cases hr
  · obtain ⟨t, ht, -⟩ := encFrame_fits hfit
    exact ⟨_, ht⟩

end Sys2Proof.Machine
end

section
/-! SUPPORT. `DEC_FEED` on a buffer cut in two (43_decoder.md R160), by induction over the first part. -/

namespace Sys2Proof.Machine

section
variable {c : Byte} {a cs : List Byte} {s t u : State} {r : FeedResult}

theorem decFeed_cons_of_processing (cs : List Byte) (hu : exec (.decByte c) s = .next u)
    (hst : (responseOf u).status = .processing) :
    decFeed (c :: cs) s = onNext (decFeed cs u) fun r => .next (r.1, r.2.afterOneMore) := by
  rw [decFeed, hu, onNext_next, if_pos hst]

theorem decFeed_cons_of_ended (cs : List Byte) (hu : exec (.decByte c) s = .next u)
    (hst : (responseOf u).status ≠ .processing) :
    decFeed (c :: cs) s = .next (u, ⟨(responseOf u).status, (responseOf u).value, 1⟩) := by
  rw [decFeed, hu, onNext_next, if_neg hst]

/-- Everything a feed of one byte or more can give: the feed of the rest after a byte answered `Processing`, or the
answer of the first byte. -/
theorem decFeed_cons_cases (h : decFeed (c :: cs) s = .next (t, r)) :
    ∃ u, exec (.decByte c) s = .next u ∧
      (((responseOf u).status = .processing ∧ ∃ r', decFeed cs u = .next (t, r') ∧ r = r'.afterOneMore) ∨
       ((responseOf u).status ≠ .processing ∧ (responseOf u).status ≠ .incompleteFrame ∧ t = u ∧
         r = ⟨(responseOf u).status, (responseOf u).value, 1⟩)) := by
  obtain ⟨u, hu, -⟩ := (onNext_eq_next ..).mp h
  refine ⟨u, hu, ?_⟩
  by_cases hst : (responseOf u).status = .processing
  · rw [decFeed_cons_of_processing cs hu hst] at h
    obtain ⟨⟨t', r'⟩, hrest, heq⟩ := (onNext_eq_next ..).mp h
    obtain ⟨rfl, rfl⟩ := Prod.mk.inj (Host.Outcome.next.inj heq)
    exact .inl ⟨hst, r', hrest, rfl⟩
  · rw [decFeed_cons_of_ended cs hu hst] at h
    obtain ⟨rfl, rfl⟩ := Prod.mk.inj (Host.Outcome.next.inj h)
    refine .inr ⟨hst, ?_, rfl, rfl⟩
    obtain ⟨-, rfl⟩ := (exec_decByte_next c s u).mp hu
    rw [responseOf_respond]
    exact decoderByte_status_ne_incompleteFrame c s.dec

/-- A feed that exhausts its buffer goes on with what is fed next. -/
theorem decFeed_append_of_incomplete (b : List Byte) (h : decFeed a s = .next (t, r))
    (hst : r.status = .incompleteFrame) : r.value = 0 ∧ r.consumed = a.length ∧
      decFeed (a ++ b) s = onNext (decFeed b t) fun q =>
        .next (q.1, { q.2 with consumed := a.length + q.2.consumed }) := by
  induction a generalizing s r with
  | nil =>
    obtain ⟨rfl, rfl⟩ := Prod.mk.inj (Host.Outcome.next.inj h)
    refine ⟨rfl, rfl, ?_⟩
    rw [List.nil_append]
    cases decFeed b s <;> simp
  | cons c cs ih =>
    obtain ⟨u, hu, ⟨hproc, r', hrest, rfl⟩ | ⟨-, hne, -, rfl⟩⟩ := decFeed_cons_cases h
    · obtain ⟨hvalue, hconsumed, hrun⟩ := ih hrest hst
      refine ⟨hvalue, congrArg (· + 1) hconsumed, ?_⟩
      rw [List.cons_append, decFeed_cons_of_processing _ hu hproc, hrun, onNext_assoc]
      simp only [onNext_next, FeedResult.afterOneMore, List.length_cons, Nat.add_right_comm]
    · exact absurd hst hne

/-- A feed that ends at a frame or an error leaves what is fed next unconsumed. -/
theorem decFeed_append_of_ended (b : List Byte) (h : decFeed a s = .next (t, r))
    (hst : r.status ≠ .incompleteFrame) :
    r.status ≠ .processing ∧ r.consumed ≤ a.length ∧ decFeed (a ++ b) s = .next (t, r) := by
  induction a generalizing s r with
  | nil =>
    obtain ⟨-, rfl⟩ := Prod.mk.inj (Host.Outcome.next.inj h)
    exact absurd rfl hst
  | cons c cs ih =>
    obtain ⟨u, hu, ⟨hproc, r', hrest, rfl⟩ | ⟨hend, -, rfl, rfl⟩⟩ := decFeed_cons_cases h
    · obtain ⟨hne, hconsumed, hrun⟩ := ih hrest hst
      refine ⟨hne, Nat.succ_le_succ hconsumed, ?_⟩
      rw [List.cons_append, decFeed_cons_of_processing _ hu hproc, hrun, onNext_next]
    · exact ⟨hend, Nat.le_add_left _ _, decFeed_cons_of_ended _ hu hend⟩

end

/-- Settles O56: the two ways a feed of the first part can end. -/
theorem decFeedContinues : Obligations.DecFeedContinues :=
  fun _ b _ _ _ h => ⟨decFeed_append_of_incomplete b h, decFeed_append_of_ended b h⟩

end Sys2Proof.Machine
end

section
/-! SUPPORT. Frames of any shape fed to a decoder with room for them (43_decoder.md R166, R169): a frame-shaped
sequence ends at its terminator, with `MalformedFrame` where `Unstuff` is undefined. -/

namespace Sys2Proof.Machine

/-- Feeding `f` ends at its last byte with the status `st` and the value `v`. -/
def EndsWith (st : Status) (v : Nat) (f : List Byte) (s : State) : Prop :=
  ∃ t, decFeed f s = .next (t, ⟨st, v, f.length⟩)

section
variable {st : Status} {v n : Nat} {mand : Bool} {c m x : Byte} {f g q : List Byte} {s : State} {d : Decoder}

theorem EndsWith.cons (hp : s.dec.dphase = .ready) (hd : decoderByte c s.dec = (d, ⟨.processing, 0⟩))
    (h : EndsWith st v f ({ s with dec := d }.respond ⟨.processing, 0⟩)) : EndsWith st v (c :: f) s := by
  obtain ⟨t, ht⟩ := h
  exact ⟨t, by rw [decFeed_cons_processing hp hd, ht]; rfl⟩

theorem endsWith_singleton {r : Response} (hp : s.dec.dphase = .ready) (hd : decoderByte c s.dec = (d, r))
    (hr : r.status ≠ .processing) : EndsWith r.status r.value [c] s :=
  ⟨_, decFeed_cons_ended hp hd hr⟩

/-- With room left a non-zero byte is taken, and one cell at most is written. -/
theorem decoderByte_of_room (hc : c ≠ Config.delim) (hroom : d.dw ≠ d.dcap) :
    ∃ d', decoderByte c d = (d', ⟨.processing, 0⟩) ∧ d'.dcap = d.dcap ∧ d'.dphase = d.dphase ∧
      d'.dw ≤ d.dw + 1 := by
  by_cases hr : d.drem = 0#8
  · cases hm : d.dmand with
    | true => exact ⟨_, decoderByte_marker c d hr hc hm, rfl, rfl, Nat.le_succ _⟩
    | false => exact ⟨_, decoderByte_delimiterMarker c d hr hc hm hroom, rfl, rfl, le_rfl⟩
  · exact ⟨_, decoderByte_literal c d hr hc hroom, rfl, rfl, le_rfl⟩

/-- With room for every byte of a frame it ends at the terminator, complete or malformed. -/
theorem endsWith_of_room (hp : s.dec.dphase = .ready) (hg : nonZero g) (hroom : s.dec.dw + g.length ≤ s.dec.dcap) :
    ∃ st v, (st = .frameAvailable ∨ st = .malformedFrame) ∧ EndsWith st v (g ++ [Config.delim]) s := by
  induction g generalizing s with
  | nil =>
    by_cases hr : s.dec.drem = 0#8
    · exact ⟨_, _, .inl rfl, endsWith_singleton hp (decoderByte_terminator s.dec hr) (by simp)⟩
    · exact ⟨_, _, .inr rfl, endsWith_singleton hp (decoderByte_malformed s.dec hr) (by simp)⟩
  | cons c g ih =>
    rw [List.length_cons] at hroom
    obtain ⟨hc, hg⟩ := List.forall_mem_cons.mp hg
    obtain ⟨d, hd, hcap, hphase, hdw⟩ := decoderByte_of_room hc (show s.dec.dw ≠ s.dec.dcap by omega)
    obtain ⟨st, v, hst, hends⟩ := ih (s := { s with dec := d }.respond ⟨.processing, 0⟩) (hphase.trans hp) hg (by
      show d.dw + g.length ≤ d.dcap
      omega)
    exact ⟨st, v, hst, hends.cons hp hd⟩

/-- Settles O57: the first byte of a frame is a marker that writes nothing, so the bytes between it and the
terminator are all that need room. -/
theorem maxDecodeLenSuffices : Obligations.MaxDecodeLenSuffices := by
  intro f s hshape hp hinit hcap
  obtain ⟨hdw, hrem, hmand⟩ := hinit
  obtain ⟨g, rfl, hg⟩ := (frameShaped_iff f).mp hshape
  have hends : ∃ st v, (st = .frameAvailable ∨ st = .malformedFrame) ∧ EndsWith st v (g ++ [Config.delim]) s := by
    cases g with
    | nil => exact endsWith_of_room hp hg (by rw [hdw]; exact Nat.zero_le _)
    | cons m g =>
      obtain ⟨hm, hg⟩ := List.forall_mem_cons.mp hg
      have hd := decoderByte_marker m s.dec hrem hm hmand
      obtain ⟨st, v, hst, hends⟩ :=
        endsWith_of_room (s := { s with dec := loadMarker m s.dec }.respond ⟨.processing, 0⟩) hp hg (by
          show s.dec.dw + g.length ≤ s.dec.dcap
          simp only [maxDecodeLen, List.length_append, List.length_cons, List.length_nil] at hcap
          rw [if_neg (by omega)] at hcap
          omega)
      exact ⟨st, v, hst, hends.cons hp hd⟩
  obtain ⟨st, v, hst, t, ht⟩ := hends
  exact ⟨t, _, ht, hst, rfl⟩

/-- The rest `f` of a frame is malformed, from every decoder with `n` literals of the run to come, the flag `mand`,
and room for every byte. -/
def Malforms (n : Nat) (mand : Bool) (f : List Byte) : Prop :=
  ∀ s : State, s.dec.dphase = .ready → s.dec.drem.toNat = n → s.dec.dmand = mand →
    s.dec.dw + f.length ≤ s.dec.dcap → EndsWith .malformedFrame 0 f s

/-- A terminator in a literal position (43_decoder.md R159). -/
theorem malforms_terminator (hn : n ≠ 0) (mand : Bool) : Malforms n mand [Config.delim] := by
  intro s hp hrem _ _
  have hr : s.dec.drem ≠ 0#8 := fun h0 => hn (by rw [← hrem, h0]; rfl)
  exact endsWith_singleton hp (decoderByte_malformed s.dec hr) (by simp)

theorem malforms_literal (hx : x ≠ Config.delim) (h : Malforms n mand f) : Malforms (n + 1) mand (x :: f) := by
  intro s hp hrem hm hroom
  rw [List.length_cons] at hroom
  refine .cons hp (decoderByte_literal x s.dec (by bv_omega) hx (by omega)) (h _ hp ?_ hm ?_)
  · show (s.dec.drem - 1#8).toNat = n
    bv_omega
  · show s.dec.dw + 1 + f.length ≤ s.dec.dcap
    omega

theorem malforms_literals (hq : nonZero q) (h : Malforms n mand f) : Malforms (q.length + n) mand (q ++ f) := by
  induction q with
  | nil => rwa [List.length_nil, Nat.zero_add]
  | cons x q ih =>
    obtain ⟨hx, hq⟩ := List.forall_mem_cons.mp hq
    rw [List.length_cons, Nat.add_right_comm]
    exact malforms_literal hx (ih hq)

theorem malforms_marker (hm : m ≠ Config.delim) (h : Malforms (m.toNat - 1) (m == Config.codeFull) f)
    (mand : Bool) : Malforms 0 mand (m :: f) := by
  intro s hp hrem hmand hroom
  rw [List.length_cons] at hroom
  have hr : s.dec.drem = 0#8 := BitVec.eq_of_toNat_eq hrem
  cases mand with
  | true =>
    refine .cons hp (decoderByte_marker m s.dec hr hm hmand) (h _ hp (loadMarker_counters hm s.dec).1 rfl ?_)
    show s.dec.dw + f.length ≤ s.dec.dcap
    omega
  | false =>
    refine .cons hp (decoderByte_delimiterMarker m s.dec hr hm hmand (by omega))
      (h _ hp (loadMarker_counters hm (pushDbuf Config.delim s.dec)).1 rfl ?_)
    show s.dec.dw + 1 + f.length ≤ s.dec.dcap
    omega

/-- A turn of `Unstuff` at a marker of a frame: a run longer than the bytes before the terminator swallows it. -/
theorem unstuffLoop_frame (n : Nat) (mand : Bool) (hm : m ≠ Config.delim) (g : List Byte) :
    unstuffLoop (n + 1) mand (m :: (g ++ [Config.delim])) =
      if g.length < m.toNat - 1 then none
      else (unstuffLoop n (m == Config.codeFull) (g.drop (m.toNat - 1) ++ [Config.delim])).map fun out =>
        owedBytes mand ++ (g.take (m.toNat - 1) ++ out) := by
  rw [unstuffLoop_marker n mand hm, List.length_append, List.length_singleton]
  by_cases hlen : g.length < m.toNat - 1
  · rw [if_pos (Nat.succ_le_of_lt hlen), if_pos hlen]
  · have hle : m.toNat - 1 ≤ g.length := Nat.not_lt.mp hlen
    rw [if_neg (Nat.not_le.mpr (Nat.lt_succ_of_le hle)), if_neg hlen, List.drop_append_of_le_length hle,
      List.take_append_of_le_length hle]

theorem nonZero_take (hg : nonZero g) (k : Nat) : nonZero (g.take k) :=
  fun x hx => hg x (List.mem_of_mem_take hx)

theorem nonZero_drop (hg : nonZero g) (k : Nat) : nonZero (g.drop k) :=
  fun x hx => hg x (List.mem_of_mem_drop hx)

/-- Bytes taken off the front of a frame and the frame that is left. -/
theorem take_append_drop_frame (k : Nat) (g : List Byte) :
    g.take k ++ (g.drop k ++ [Config.delim]) = g ++ [Config.delim] := by
  rw [← List.append_assoc, List.take_append_drop]

/-- Where `Unstuff` is defined, the decoder gives its payload: the turns of its loop are the decoder's runs. -/
theorem decodesTo_of_unstuffLoop {out : List Byte} (hg : nonZero g)
    (h : unstuffLoop n mand (g ++ [Config.delim]) = some out) : DecodesTo 0 mand (g ++ [Config.delim]) out := by
  induction n generalizing mand g out with
  | zero => cases h
  | succ n ih =>
    cases g with
    | nil =>
      rw [List.nil_append, unstuffLoop_terminator] at h
      obtain rfl := Option.some.inj h
      exact decodesTo_terminator mand
    | cons m g =>
      obtain ⟨hm, hg⟩ := List.forall_mem_cons.mp hg
      rw [List.cons_append, unstuffLoop_frame n mand hm] at h
      split_ifs at h with hlen
      obtain ⟨rest, hrest, rfl⟩ := Option.map_eq_some_iff.mp h
      have htake : (g.take (m.toNat - 1)).length = m.toNat - 1 := List.length_take_of_le (Nat.not_lt.mp hlen)
      have hrun := decodesTo_literals (nonZero_take hg (m.toNat - 1)) (ih (nonZero_drop hg _) hrest)
      rw [take_append_drop_frame, htake] at hrun
      exact decodesTo_marker hm hrun mand

/-- Where `Unstuff` is undefined, a run swallows the terminator and the decoder finds it malformed. -/
theorem malforms_of_unstuffLoop (hg : nonZero g) (hn : g.length < n)
    (h : unstuffLoop n mand (g ++ [Config.delim]) = none) : Malforms 0 mand (g ++ [Config.delim]) := by
  induction n generalizing mand g with
  | zero => exact absurd hn (Nat.not_lt_zero _)
  | succ n ih =>
    cases g with
    | nil =>
      rw [List.nil_append, unstuffLoop_terminator] at h
      cases h
    | cons m g =>
      obtain ⟨hm, hg⟩ := List.forall_mem_cons.mp hg
      rw [List.cons_append, unstuffLoop_frame n mand hm] at h
      rw [List.length_cons] at hn
      refine malforms_marker hm ?_ mand
      split_ifs at h with hlen
      · have hrun := malforms_literals hg (malforms_terminator (n := m.toNat - 1 - g.length) (by omega)
          (m == Config.codeFull))
        rwa [Nat.add_sub_cancel' hlen.le] at hrun
      · have htake : (g.take (m.toNat - 1)).length = m.toNat - 1 := List.length_take_of_le (Nat.not_lt.mp hlen)
        have hrun := malforms_literals (nonZero_take hg (m.toNat - 1))
          (ih (nonZero_drop hg _) (by rw [List.length_drop]; omega) (Option.map_eq_none_iff.mp h))
        rwa [take_append_drop_frame, htake] at hrun

end

/-- Settles O52: the turns of `Unstuff` are the runs the decoder meets, and it has turns for all of them. -/
theorem decoderAgreesWithUnstuff : Obligations.DecoderAgreesWithUnstuff := by
  intro f s hshape hp hinit
  obtain ⟨hdw, hrem, hmand⟩ := hinit
  have hrem0 : s.dec.drem.toNat = 0 := by rw [hrem]; rfl
  simp only [unstuff, if_pos hshape]
  obtain ⟨g, rfl, hg⟩ := (frameShaped_iff f).mp hshape
  refine ⟨fun b hb hcap => ?defined, fun hnone hcap => ?undefined⟩
  case defined =>
    obtain ⟨t, hfeed, hholds, -⟩ :=
      decodesTo_of_unstuffLoop hg hb s hp hrem0 hmand (by rwa [hdw, Nat.zero_add])
    rw [hdw, Nat.zero_add] at hfeed
    rw [hdw] at hholds
    exact ⟨t, hfeed, hholds⟩
  case undefined =>
    have hlen : g.length < (g ++ [Config.delim]).length := by
      rw [List.length_append]
      exact Nat.lt_succ_self _
    exact malforms_of_unstuffLoop hg hlen hnone s hp hrem0 hmand (by rwa [hdw, Nat.zero_add])

end Sys2Proof.Machine
end

section
/-! SUPPORT. A payload longer than the capacity (43_decoder.md R172): the decoder writes what fits and overflows at
the byte for which there is no room, before the terminator. -/

namespace Sys2Proof.Machine

/-- Feeding `f` ends before its last byte with `Overflow`; the part of `b` that fits stands in DBUF from `DW` on, the
cells below `DW` and those past the capacity as they were. -/
def Overflows (f b : List Byte) (s : State) : Prop :=
  ∃ t k, decFeed f s = .next (t, ⟨.overflow, 0, k⟩) ∧ k < f.length ∧
    t.dec.dbuf.holdsFrom s.dec.dw (b.take (s.dec.dcap - s.dec.dw)) ∧
    ∀ a, a < s.dec.dw ∨ s.dec.dcap ≤ a → t.dec.dbuf.read a = s.dec.dbuf.read a

/-- The rest `f` of a frame overflows on the rest `b` of a payload, from every decoder with `n` literals of the run to
come, the flag `mand`, and no room for `b`. -/
def OverflowsOn (n : Nat) (mand : Bool) (f b : List Byte) : Prop :=
  ∀ s : State, s.dec.dphase = .ready → s.dec.drem.toNat = n → s.dec.dmand = mand →
    s.dec.dw ≤ s.dec.dcap → s.dec.dcap < s.dec.dw + b.length → Overflows f b s

section
variable {n : Nat} {mand : Bool} {c v m x : Byte} {f b q : List Byte} {s : State} {d : Decoder}

/-- A byte for which there is no room. -/
theorem overflows_full (hp : s.dec.dphase = .ready) (hfull : s.dec.dw = s.dec.dcap) (hf : f ≠ [])
    (hd : decoderByte c s.dec = (autoReset s.dec, ⟨.overflow, 0⟩)) : Overflows (c :: f) b s := by
  refine ⟨_, 1, decFeed_cons_ended hp hd (by simp), ?_, ?_, fun a _ => rfl⟩
  · exact Nat.succ_lt_succ (List.length_pos_iff.mpr hf)
  · rw [hfull, Nat.sub_self, List.take_zero]
    trivial

/-- A byte that writes nothing. -/
theorem Overflows.cons_unwritten (hp : s.dec.dphase = .ready)
    (hd : decoderByte c s.dec = (d, ⟨.processing, 0⟩)) (hbuf : d.dbuf = s.dec.dbuf) (hdw : d.dw = s.dec.dw)
    (hcap : d.dcap = s.dec.dcap) (h : Overflows f b ({ s with dec := d }.respond ⟨.processing, 0⟩)) :
    Overflows (c :: f) b s := by
  obtain ⟨t, k, hfeed, hk, hholds, hsame⟩ := h
  simp only [State.respond_dec, hbuf, hdw, hcap] at hholds hsame
  exact ⟨t, k + 1, by rw [decFeed_cons_processing hp hd, hfeed]; rfl, Nat.succ_lt_succ hk, hholds, hsame⟩

/-- A byte that writes `v`, with room left. -/
theorem Overflows.cons_written (hp : s.dec.dphase = .ready) (hroom : s.dec.dw < s.dec.dcap)
    (hd : decoderByte c s.dec = (d, ⟨.processing, 0⟩)) (hbuf : d.dbuf = s.dec.dbuf.write s.dec.dw v)
    (hdw : d.dw = s.dec.dw + 1) (hcap : d.dcap = s.dec.dcap)
    (h : Overflows f b ({ s with dec := d }.respond ⟨.processing, 0⟩)) : Overflows (c :: f) (v :: b) s := by
  obtain ⟨t, k, hfeed, hk, hholds, hsame⟩ := h
  simp only [State.respond_dec, hbuf, hdw, hcap, Memory.read_write] at hholds hsame
  refine ⟨t, k + 1, by rw [decFeed_cons_processing hp hd, hfeed]; rfl, Nat.succ_lt_succ hk, ?_, fun a ha => ?_⟩
  · rw [show s.dec.dcap - s.dec.dw = s.dec.dcap - (s.dec.dw + 1) + 1 by omega, List.take_succ_cons]
    exact ⟨by rw [hsame _ (.inl (Nat.lt_succ_self _)), if_pos rfl], hholds⟩
  · rw [hsame a (by omega), if_neg (by omega)]

theorem overflowsOn_terminator (mand : Bool) : OverflowsOn 0 mand [Config.delim] [] :=
  fun _ _ _ _ hle hlt => absurd hle hlt.not_ge

/-- A literal is written, or overflows (43_decoder.md R157, R158). -/
theorem overflowsOn_literal (hx : x ≠ Config.delim) (hf : f ≠ []) (h : OverflowsOn n mand f b) :
    OverflowsOn (n + 1) mand (x :: f) (x :: b) := by
  intro s hp hn hm hle hlt
  rw [List.length_cons] at hlt
  have hr : s.dec.drem ≠ 0#8 := by bv_omega
  rcases hle.eq_or_lt with hfull | hroom
  · exact overflows_full hp hfull hf (decoderByte_overflowLiteral x s.dec hr hx hfull)
  · refine .cons_written hp hroom (decoderByte_literal x s.dec hr hx hroom.ne) rfl rfl rfl (h _ hp ?_ hm hroom ?_)
    · show (s.dec.drem - 1#8).toNat = n
      bv_omega
    · show s.dec.dcap < s.dec.dw + 1 + b.length
      omega

theorem overflowsOn_literals (hq : nonZero q) (hf : f ≠ []) (h : OverflowsOn 0 mand f b) :
    OverflowsOn q.length mand (q ++ f) (q ++ b) := by
  induction q with
  | nil => exact h
  | cons x q ih =>
    obtain ⟨hx, hq⟩ := List.forall_mem_cons.mp hq
    exact overflowsOn_literal hx (List.append_ne_nil_of_right_ne_nil q hf) (ih hq)

/-- A marker writes the delimiter owed before it, if any, or overflows on it (43_decoder.md R155, R156). -/
theorem overflowsOn_marker (hm : m ≠ Config.delim) (hf : f ≠ [])
    (h : OverflowsOn (m.toNat - 1) (m == Config.codeFull) f b) (mand : Bool) :
    OverflowsOn 0 mand (m :: f) (owedBytes mand ++ b) := by
  intro s hp hn hmand hle hlt
  have hr : s.dec.drem = 0#8 := BitVec.eq_of_toNat_eq hn
  cases mand with
  | true =>
    exact .cons_unwritten hp (decoderByte_marker m s.dec hr hm hmand) rfl rfl rfl
      (h _ hp (loadMarker_counters hm s.dec).1 rfl hle hlt)
  | false =>
    have hlt : s.dec.dcap < s.dec.dw + (b.length + 1) := hlt
    rcases hle.eq_or_lt with hfull | hroom
    · exact overflows_full hp hfull hf (decoderByte_overflowDelimiter m s.dec hr hm hmand hfull)
    · refine .cons_written hp hroom (decoderByte_delimiterMarker m s.dec hr hm hmand hroom.ne) rfl rfl rfl
        (h _ hp (loadMarker_counters hm _).1 rfl hroom ?_)
      show s.dec.dcap < s.dec.dw + 1 + b.length
      omega

theorem overflowsOn_runBytes (hq : LegalRun q) (hf : f ≠ [])
    (h : OverflowsOn 0 (q.length == Config.runCap) f b) (mand : Bool) :
    OverflowsOn 0 mand (runBytes q ++ f) (owedBytes mand ++ (q ++ b)) := by
  refine overflowsOn_marker (marker_ne_delim hq.1) (List.append_ne_nil_of_right_ne_nil q hf) ?_ mand
  rw [marker_toNat hq.1, marker_beq_codeFull hq.1]
  exact overflowsOn_literals hq.2 hf h

end

/-- Runs of the grammar, one after the other, overflow on what they stand for, behind the delimiter owed before them,
if any. -/
theorem overflowsOn_frameBytes {runs : List (List Byte)} (hne : runs ≠ []) (hruns : ∀ q ∈ runs, LegalRun q)
    (mand : Bool) : OverflowsOn 0 mand (frameBytes runs) (owedBytes mand ++ payloadOfRuns runs) := by
  induction runs generalizing mand with
  | nil => exact absurd rfl hne
  | cons q runs ih =>
    obtain ⟨hq, hruns⟩ := List.forall_mem_cons.mp hruns
    have hframe : frameBytes runs ≠ [] := by simp [frameBytes]
    rw [frameBytes_cons]
    cases runs with
    | nil =>
      have h := overflowsOn_runBytes hq hframe (overflowsOn_terminator _) mand
      rwa [List.append_nil] at h
    | cons r rs =>
      rw [payloadOfRuns_cons q (List.cons_ne_nil r rs)]
      exact overflowsOn_runBytes hq hframe (ih (List.cons_ne_nil r rs) hruns _) mand

/-- Settles O54: `Stuff(b)` is the frame of runs that stand for `b`, and in the initial state no delimiter is owed. -/
theorem overflowKeepsWhatFits : Obligations.OverflowKeepsWhatFits := by
  intro b s hp hinit hcap
  obtain ⟨hdw, hrem, hmand⟩ := hinit
  obtain ⟨runs, hcanonical⟩ := exists_canonicalRuns b
  obtain ⟨hne, hruns⟩ := (legalRuns_iff runs).mp hcanonical.legal
  have h := overflowsOn_frameBytes hne hruns true
  rw [← hcanonical.frame, hcanonical.payload] at h
  obtain ⟨t, k, hfeed, hk, hholds, hsame⟩ := h s hp (by rw [hrem]; rfl) hmand (by rw [hdw]; exact Nat.zero_le _)
    (by rw [hdw, Nat.zero_add]; exact hcap)
  rw [hdw, Nat.sub_zero] at hholds
  exact ⟨t, k, hfeed, hk, hholds, fun a ha => hsame a (.inr ha)⟩

end Sys2Proof.Machine
end
